-- ==== Sys2Proof/Word.lean ====
section
/-! DEFINITION. The bit-vector types of the machine (`00_scope.md` R7, R10). -/

namespace Sys2Proof

/-- A byte: a general register, a timer, a byte of memory, the literal `kk`. -/
abbrev Byte := BitVec 8

/-- A 16-bit word: an instruction word, the program counter, a stack entry. -/
abbrev Word := BitVec 16

/-- A 12-bit address: the index register and the literal `nnn`. -/
abbrev Addr := BitVec 12

/-- A nibble: a register index `x` or `y`, the literal `n`. -/
abbrev Nibble := BitVec 4

end Sys2Proof
end

