-- ==== Sys2Proof/Config.lean ====
section
/-! DEFINITION. What an implementation fixes (the font table) and the free values (the random byte, the
Display's failures and collision bits, the schedule). -/

namespace Sys2Proof

/-- The font table `FONT`, 80 bytes, glyph `d` at bytes `5*d` to `5*d + 4`: the default of `10_state.md` R44.
PRESUMED (the spec takes the bytes from general knowledge, D18): log entry 3. -/
def Config.defaultFont : List Byte :=
  [0xF0, 0x90, 0x90, 0x90, 0xF0] ++ [0x20, 0x60, 0x20, 0x20, 0x70] ++
  [0xF0, 0x10, 0xF0, 0x80, 0xF0] ++ [0xF0, 0x10, 0xF0, 0x10, 0xF0] ++
  [0x90, 0x90, 0xF0, 0x10, 0x10] ++ [0xF0, 0x80, 0xF0, 0x10, 0xF0] ++
  [0xF0, 0x80, 0xF0, 0x90, 0xF0] ++ [0xF0, 0x10, 0x20, 0x40, 0x40] ++
  [0xF0, 0x90, 0xF0, 0x90, 0xF0] ++ [0xF0, 0x90, 0xF0, 0x10, 0xF0] ++
  [0xF0, 0x90, 0xF0, 0x90, 0x90] ++ [0xE0, 0x90, 0xE0, 0x90, 0xE0] ++
  [0xF0, 0x80, 0x80, 0x80, 0xF0] ++ [0xE0, 0x90, 0xE0, 0x90, 0xE0] ++
  [0xF0, 0x80, 0xF0, 0x80, 0xF0] ++ [0xF0, 0x80, 0xF0, 0x80, 0x80]

/-- The random byte of the `k`-th draw of a session, where the host has supplied none: a free value
(`42_register_ops.md` R117). Safe: every claim holds for every value of it (log entry 4). -/
opaque Config.randomByte : Nat → Byte

/-- The collision bit of the `k`-th answer the Display gives, where none has been supplied: a free
value (`60_exceptions.md` R176). Safe: every claim holds for every value of it (log entry 5). -/
opaque Config.collision : Nat → Bool

/-- Whether the `k`-th answer the Display gives, where none has been supplied, is a failure, and what it then carries: a
free value (`60_exceptions.md` R155, R176, R178). Safe: every claim holds for every value of it (log entries 5, 19). -/
opaque Config.displayFailure : Nat → Option Nat

/-- Whether the `k`-th transition of the machine is a tick, where the host has supplied none: a free value, so that the
schedule beyond the supplied transitions is any infinite sequence (`60_exceptions.md` R169, R170). Safe: every claim
holds for every value of it (log entry 6). -/
opaque Config.tickDue : Nat → Bool

end Sys2Proof
end

