-- ==== Sys2Proof/Machine/State.lean ====
section
/-! DEFINITION. The state of the machine as plain data, the reasons it stops, and the state after `reset()`
(`10_state.md` R20 to R47). -/

namespace Sys2Proof.Machine

/-- The number of bytes of memory (`10_state.md` R42). -/
def memSize : Nat := 0x1000

/-- The memory: the bytes that differ from their reset content, by strictly rising address (`10_state.md` R42, R43;
`Memory.wf` states the form). -/
abbrev Memory := List Host.Cell

/-- What a failing Display call carries, opaque to the core (`60_exceptions.md` R155). -/
abbrev FailureInfo := Nat

/-- The error kinds with their payloads (`60_exceptions.md` R150). No numeric codes exist (R158). -/
inductive ErrorKind where
  /-- Raised by `load_program` (R151). -/
  | programTooLarge
  /-- Raised by call, through `Push` (R152). -/
  | stackOverflow
  /-- Raised by return, through `Pop` (R153). -/
  | stackUnderflow
  /-- Raised by the Unknown form, with the word and the address it was fetched from (R154). -/
  | unimplementedOpcode (word pc : Word)
  /-- Raised by clear-screen and draw-sprite when the Display call fails, its failure unchanged (R155). -/
  | collaboratorFailure (info : FailureInfo)
  /-- Raised by the fetch of a step (R156). -/
  | fetchOutOfRange (pc : Word)
  /-- Raised by draw-sprite (R157). -/
  | memoryOutOfRange (index : Addr) (n : Nibble)
deriving DecidableEq, Repr

/-- The run status (`10_state.md` R40). -/
inductive RunStatus where
  | running
  | faulted (e : ErrorKind)
deriving DecidableEq, Repr

/-- The atomic transitions a schedule is made of (`60_exceptions.md` R169). -/
inductive Transition where
  /-- One step of the Decode/Execute Engine. -/
  | step
  /-- One tick of the Timer Scheduler. -/
  | tick
deriving DecidableEq, Repr

/-- A call the core makes to the Display (`60_exceptions.md` R174, R175, R180). -/
inductive DisplayCall where
  | clear
  | draw (sprite : List Byte) (x y : Byte)
deriving DecidableEq, Repr

/-- The Display's answer to a call: done, with the collision Boolean (which a clear does not use), or a failure
(`60_exceptions.md` R174 to R178). -/
inductive DisplayAnswer where
  | ok (collision : Bool)
  | fails (info : FailureInfo)
deriving DecidableEq, Repr

/-- The state of the machine. The first nine fields are all the architectural state of `10_state.md` R47; the other
eight are the inputs the spec leaves open (`00_scope.md` R9), the output it asks to record (`60_exceptions.md` R180), the three
counters of free values and the session's load mark (`70_reset_and_hazards.md` R194). -/
structure State where
  /-- `V[0]` to `V[15]` (R20). -/
  v : Vector Byte 16
  /-- The program counter (R24). -/
  pc : Word
  /-- The index register `I` (R32). -/
  index : Addr
  /-- The stack pointer, 0 to 16 (R33). -/
  sp : Fin 17
  /-- The call stack's entries (R36). -/
  stack : Vector Word 16
  /-- The delay timer `DT` (R34). -/
  dt : Byte
  /-- The sound timer `ST` (R35). -/
  st : Byte
  /-- The memory (R42). -/
  mem : Memory
  /-- The run status (R40). -/
  status : RunStatus
  /-- Input: the transitions the host has supplied and not yet driven, first the next one; after them the schedule goes
  on with free ones (log entry 6). -/
  schedule : List Transition
  /-- The number of transitions the schedule has given, the place of the next one in it (log entry 6). -/
  moves : Nat
  /-- Input: the Display's answers to the coming calls (log entry 5). -/
  displayInput : List DisplayAnswer
  /-- The number of answers the Display has given (log entry 5). -/
  answers : Nat
  /-- Input: the random source's coming bytes (log entry 4). -/
  randomInput : List Byte
  /-- The number of random bytes drawn (log entry 4). -/
  draws : Nat
  /-- Output: the Display calls made in the session, oldest first (log entry 7). -/
  calls : List DisplayCall
  /-- Whether the session's one program load has happened, which its steps and ticks wait for
  (`70_reset_and_hazards.md` R194; log entry 8). -/
  loaded : Bool
deriving DecidableEq, Repr

/-- Why the machine has no next state. -/
inductive Fault where
  /-- Raised by `transition` (hence by `step`) alone, in a state whose `status` is `Faulted(e)`: neither the engine nor
  the Timer Scheduler has a step there (`10_state.md` R40, `60_exceptions.md` R164). Safe: nothing is claimed of what
  follows an error. -/
  | sessionOver (e : ErrorKind)
deriving DecidableEq, Repr

/-- What the model declines to give a meaning. -/
inductive Refusal where
  /-- Raised by an arm of `exec` whose instruction has no meaning yet; no arm is left so. Safe. -/
  | notModelled (mnemonic : String)
  /-- Raised by `loadProgram` when the state is not one `reset()` left: the spec defines neither a second load in one
  session nor a load without a reset, and asks a model to refuse them (`70_reset_and_hazards.md` R194, D28). Safe. -/
  | loadOutOfOrder
  /-- Raised by `transition` (hence by `step`) alone, for a step or a tick before the session's load: a session is
  reset, one load, then transitions, and the spec asks a model to refuse other sequences (`70_reset_and_hazards.md`
  R194, D28). Safe. -/
  | noProgramLoaded
deriving DecidableEq, Repr

/-- The state right after `reset()` (`10_state.md` R47, `70_reset_and_hazards.md` R190), with no input supplied, no
Display call made and no program loaded. No byte of memory is listed, so every byte reads as its reset content. -/
def State.reset : State where
  v := Vector.replicate 16 0
  pc := 0x200
  index := 0
  sp := 0
  stack := Vector.replicate 16 0
  dt := 0
  st := 0
  mem := []
  status := .running
  schedule := []
  moves := 0
  displayInput := []
  answers := 0
  randomInput := []
  draws := 0
  calls := []
  loaded := false

end Sys2Proof.Machine
end

