-- ==== Sys2Proof/Machine/Ops.lean ====
section
/-! DEFINITION. The named operations over memory, registers, the program counter, the call stack, the collaborators and
the run status. Every instruction's meaning is written over them. -/

namespace Sys2Proof.Machine

/-- What one transition or one host operation answers. -/
abbrev Answer := Host.Outcome State Fault Refusal

/-! ### Memory -/

/-- What a byte of memory that is not listed reads as: its content after `reset()`, the font table at 0x000 to 0x04F
and 0 above it (`10_state.md` R43). -/
def Memory.unlisted (a : Nat) : Byte := if a < 0x50 then Config.defaultFont[a]?.getD 0 else 0

/-- Read one byte (`00_scope.md` R13, `mem[a]`). -/
def Memory.read : Memory → Nat → Byte
  | [], a => Memory.unlisted a
  | (b, u) :: rest, a => if b = a then u else Memory.read rest a

/-- Put a byte before the rest of a memory, unless it is what its address reads as unlisted. -/
def Memory.cons (a : Nat) (u : Byte) (rest : Memory) : Memory :=
  if u = Memory.unlisted a then rest else (a, u) :: rest

/-- Write one byte, keeping the canonical form. -/
def Memory.write : Memory → Nat → Byte → Memory
  | [], a, u => Memory.cons a u []
  | (b, t) :: rest, a, u =>
    if b < a then (b, t) :: Memory.write rest a u
    else if b = a then Memory.cons a u rest
    else Memory.cons a u ((b, t) :: rest)

/-- `MemWrite`: store a byte sequence at ascending addresses (`00_scope.md` R13). Only the host's operations use it. -/
def Memory.writeBytes : Memory → Nat → List Byte → Memory
  | m, _, [] => m
  | m, a, u :: us => Memory.writeBytes (Memory.write m a u) (a + 1) us

/-- The canonical form from address `lo` up: strictly rising addresses inside memory, and no byte that equals its
unlisted reading. -/
def Memory.wfFrom : Nat → Memory → Bool
  | _, [] => true
  | lo, (a, u) :: rest =>
    decide (lo ≤ a) && decide (a < memSize) && decide (u ≠ Memory.unlisted a) && Memory.wfFrom (a + 1) rest

/-- The canonical form of a memory. -/
def Memory.wf (m : Memory) : Bool := Memory.wfFrom 0 m

/-- `MemRead`: the `n` bytes from address `a` up in ascending order, where they all lie in memory (`00_scope.md` R13,
`20_memory.md` R53: nothing wraps). -/
def Memory.range (m : Memory) (a n : Nat) : Option (List Byte) :=
  if a + n > memSize then none else some ((List.range n).map fun k => Memory.read m (a + k))

/-- `Fetch16`: two bytes, most significant first (`20_memory.md` R50). -/
def Memory.fetch16 (m : Memory) (a : Nat) : Word := Memory.read m a ++ Memory.read m (a + 1)

/-! ### General registers and the program counter -/

/-- `V[x]` (`10_state.md` R20). -/
def State.readV (s : State) (x : Nibble) : Byte := s.v[x.toNat]'(x.isLt)

/-- `V[x] <- b` (`10_state.md` R20). -/
def State.writeV (s : State) (x : Nibble) (b : Byte) : State := { s with v := s.v.set x.toNat b x.isLt }

/-- `pc <- a`, for the instructions that set the program counter themselves (`10_state.md` R26). -/
def State.setPc (s : State) (a : Word) : State := { s with pc := a }

/-- `pc <- pc + 2`, the advance of every other instruction (`10_state.md` R26). -/
def State.advance (s : State) : State := { s with pc := s.pc + 2 }

/-- The effect of a skip: `pc <- pc + 4` when its condition holds, else `pc <- pc + 2` (`41_skips.md` R104). -/
def State.skipIf (s : State) (c : Bool) : State := { s with pc := if c then s.pc + 4 else s.pc + 2 }

/-- `I <- a` (`10_state.md` R32). -/
def State.setIndex (s : State) (a : Addr) : State := { s with index := a }

/-- `DT <- b` (`10_state.md` R34). -/
def State.setDelay (s : State) (b : Byte) : State := { s with dt := b }

/-- `ST <- b` (`10_state.md` R35). -/
def State.setSound (s : State) (b : Byte) : State := { s with st := b }

/-! ### Errors -/

/-- `status <- Faulted(e)`, and nothing else (`60_exceptions.md` R159). -/
def State.setFaulted (s : State) (e : ErrorKind) : State := { s with status := .faulted e }

/-- Taking an error (`00_scope.md` R15, `60_exceptions.md` R159): nothing the step would assign takes effect and
`status` becomes `Faulted(e)`. There is no handler, no vector and no saved state, and no return from an error exists
(R164), so no operation stands beside it that would undo it. -/
def raise (e : ErrorKind) (s : State) : Answer := .next (s.setFaulted e)

/-! ### The call stack -/

/-- `Push(a)` (`10_state.md` R38). -/
def push (a : Word) (s : State) : Except ErrorKind State :=
  if h : s.sp.val < 16 then
    .ok { s with stack := s.stack.set s.sp.val a h, sp := ⟨s.sp.val + 1, Nat.succ_lt_succ h⟩ }
  else .error .stackOverflow

/-- `Pop()`: the entry last pushed, which keeps its value (`10_state.md` R39). -/
def pop (s : State) : Except ErrorKind (Word × State) :=
  if h : 0 < s.sp.val then
    .ok (s.stack[s.sp.val - 1]'(by have := s.sp.isLt; omega),
      { s with sp := ⟨s.sp.val - 1, by have := s.sp.isLt; omega⟩ })
  else .error .stackUnderflow

/-! ### The random source and the Display -/

/-- The byte the next `RandomByte()` returns: the host's, where it has supplied one, else a free value
(`42_register_ops.md` R117; log entry 4). -/
def State.nextRandom (s : State) : Byte :=
  match s.randomInput with
  | b :: _ => b
  | [] => Config.randomByte s.draws

/-- The state after a draw from the random source. -/
def State.drawRandom (s : State) : State :=
  { s with randomInput := s.randomInput.tail, draws := s.draws + 1 }

/-- The `k`-th answer of the Display where the host has supplied none: a failure or a collision bit, and nothing says
which (`60_exceptions.md` R176, R178; log entry 5). -/
def freeAnswer (k : Nat) : DisplayAnswer :=
  match Config.displayFailure k with
  | some info => .fails info
  | none => .ok (Config.collision k)

/-- The Display's answer to the next call: the supplied one, else a free one (`60_exceptions.md` R176; log entry 5). -/
def State.nextAnswer (s : State) : DisplayAnswer :=
  match s.displayInput with
  | a :: _ => a
  | [] => freeAnswer s.answers

/-- The state after the call `c` to the Display has been made and answered: the call is recorded
(`60_exceptions.md` R180; log entry 7). -/
def State.recordCall (s : State) (c : DisplayCall) : State :=
  { s with displayInput := s.displayInput.tail, answers := s.answers + 1, calls := s.calls ++ [c] }

/-- A call to the Display: it is recorded, and the instruction goes on as `done` says with the answer, or the Display's
failure is passed on unchanged as CollaboratorFailure with nothing else of the core changed (`60_exceptions.md` R155,
R176, R178). -/
def callDisplay (c : DisplayCall) (done : Bool → State → State) (s : State) : Answer :=
  .next (match s.nextAnswer with
    | .ok collision => done collision (s.recordCall c)
    | .fails info => (s.recordCall c).setFaulted (.collaboratorFailure info))

/-! ### The schedule and the Timer Scheduler -/

/-- The free transition at place `k` of the schedule: a step or a tick, and nothing says which (`60_exceptions.md` R169,
R170; log entry 6). -/
def freeTransition (k : Nat) : Transition := if Config.tickDue k then .tick else .step

/-- The whole schedule a state has before it, an infinite sequence counted from the next transition: the supplied ones,
and after them free ones (`60_exceptions.md` R169; log entry 6). -/
def State.scheduled (s : State) (k : Nat) : Transition :=
  match s.schedule[k]? with
  | some t => t
  | none => freeTransition (s.moves + k)

/-- The transition the schedule gives next. -/
def State.nextTransition (s : State) : Transition := s.scheduled 0

/-- The state once the schedule's next transition has been taken from it. -/
def State.takeTransition (s : State) : State := { s with schedule := s.schedule.tail, moves := s.moves + 1 }

/-- The saturating countdown of one timer (`60_exceptions.md` R167). -/
def countDown (t : Byte) : Byte := if t = 0 then 0 else t - 1

/-- `Tick()`: both timers in one atomic action (`60_exceptions.md` R167). -/
def tick (s : State) : State := { s with dt := countDown s.dt, st := countDown s.st }

end Sys2Proof.Machine
end

