-- ==== Sys2Proof/Machine/Operands.lean ====
section
/-! DEFINITION. The operand forms: the jump targets and the operands' widening (`30_encoding.md` R77), the index
arithmetic (`43_index_and_timers.md` R121) and the sprite operand (`44_display_ops.md` R132). -/

namespace Sys2Proof.Machine

/-- `zext_16(nnn)`: an absolute address, no adjustment (`30_encoding.md` R77). -/
def absoluteTarget (nnn : Addr) : Word := nnn.setWidth 16

/-- `zext_16(nnn) + zext_16(V[0])`, exact (`40_control_flow.md` R93). -/
def offsetTarget (nnn : Addr) (s : State) : Word := nnn.setWidth 16 + (s.readV 0).setWidth 16

/-- The address of the next instruction, `pc + 2` (`40_control_flow.md` R92). -/
def returnAddress (s : State) : Word := s.pc + 2

/-- `(I + zext_12(V[x])) mod 4096` (`43_index_and_timers.md` R121). -/
def indexSum (x : Nibble) (s : State) : Addr := s.index + (s.readV x).setWidth 12

/-- The sprite operand: the `n` bytes at `I`, where they all lie in memory (`44_display_ops.md` R132, R133). -/
def spriteBytes (n : Nibble) (s : State) : Option (List Byte) := Memory.range s.mem s.index.toNat n.toNat

end Sys2Proof.Machine
end

