-- ==== Sys2Proof/Machine/ControlFlow.lean ====
section
/-! DEFINITION. return, jump, call and jump-with-offset (`40_control_flow.md`). -/

namespace Sys2Proof.Machine

/-- return (R90). -/
def execRet (s : State) : Answer :=
  match pop s with
  | .ok (a, t) => .next (t.setPc a)
  | .error e => raise e s

/-- jump `nnn` (R91). -/
def execJump (nnn : Addr) (s : State) : Answer := .next (s.setPc (absoluteTarget nnn))

/-- call `nnn` (R92). -/
def execCall (nnn : Addr) (s : State) : Answer :=
  match push (returnAddress s) s with
  | .ok t => .next (t.setPc (absoluteTarget nnn))
  | .error e => raise e s

/-- jump-with-offset `nnn` (R93). -/
def execJumpOffset (nnn : Addr) (s : State) : Answer := .next (s.setPc (offsetTarget nnn s))

end Sys2Proof.Machine
end

