-- ==== Sys2Proof/Machine/Flags.lean ====
section
/-! DEFINITION. The machine's one flag, general register 15 (`10_state.md` R22, R29, R30). No instruction writes a carry
(`90_conflicts.md` C1): draw-sprite's collision is the only flag. -/

namespace Sys2Proof.Machine

/-- The flag register, `V[15]` (`10_state.md` R22). -/
def flagRegister : Nibble := 15

/-- 1 on a collision, 0 otherwise (`10_state.md` R30). -/
def flagByte (c : Bool) : Byte := if c then 1 else 0

/-- `V[15] <- (if c then 1 else 0)` (`44_display_ops.md` R133). -/
def State.setFlag (s : State) (c : Bool) : State := s.writeV flagRegister (flagByte c)

end Sys2Proof.Machine
end

