-- ==== Sys2Proof/Machine/DisplayOps.lean ====
section
/-! DEFINITION. clear-screen and draw-sprite, the two calls to the Display (`44_display_ops.md`). -/

namespace Sys2Proof.Machine

/-- clear-screen (R130). -/
def execClearScreen (s : State) : Answer :=
  callDisplay .clear (fun _ t => t.advance) s

/-- The call draw-sprite makes: the sprite and the raw values of `V[x]` and `V[y]`, read before `V[15]` is written
(R133). -/
def drawCall (x y : Nibble) (sprite : List Byte) (s : State) : DisplayCall :=
  .draw sprite (s.readV x) (s.readV y)

/-- draw-sprite `x y n` (R133): the range check, then the call, then the flag. -/
def execDrawSprite (x y n : Nibble) (s : State) : Answer :=
  match spriteBytes n s with
  | none => raise (.memoryOutOfRange s.index n) s
  | some sprite => callDisplay (drawCall x y sprite s) (fun c t => (t.setFlag c).advance) s

end Sys2Proof.Machine
end

