-- ==== Sys2Proof/Machine/IndexTimers.lean ====
section
/-! DEFINITION. The instructions that write `I`, `DT` and `ST` (`43_index_and_timers.md`). None writes the flag. -/

namespace Sys2Proof.Machine

/-- set-index `nnn` (R120). -/
def execSetIndex (nnn : Addr) (s : State) : Answer := .next (s.setIndex nnn).advance

/-- add-to-index (R121). -/
def execAddIndex (x : Nibble) (s : State) : Answer := .next (s.setIndex (indexSum x s)).advance

/-- set-delay-timer (R122). -/
def execSetDelay (x : Nibble) (s : State) : Answer := .next (s.setDelay (s.readV x)).advance

/-- set-sound-timer (R123). -/
def execSetSound (x : Nibble) (s : State) : Answer := .next (s.setSound (s.readV x)).advance

end Sys2Proof.Machine
end

