-- ==== Sys2Proof/Machine/RegisterOps.lean ====
section
/-! DEFINITION. The instructions whose only destination is `V[x]` (`42_register_ops.md`). None writes the flag. -/

namespace Sys2Proof.Machine

/-- `V[x] <- b; pc <- pc + 2`, the shared end of the seven. -/
def result (x : Nibble) (b : Byte) (s : State) : Answer := .next (s.writeV x b).advance

/-- load-immediate (R110). -/
def execLoadImm (x : Nibble) (kk : Byte) (s : State) : Answer := result x kk s

/-- add-immediate, modulo 256, no carry (R111). -/
def execAddImm (x : Nibble) (kk : Byte) (s : State) : Answer := result x (s.readV x + kk) s

/-- copy (R112). -/
def execCopy (x y : Nibble) (s : State) : Answer := result x (s.readV y) s

/-- or (R113). -/
def execBitOr (x y : Nibble) (s : State) : Answer := result x (s.readV x ||| s.readV y) s

/-- and (R114). -/
def execBitAnd (x y : Nibble) (s : State) : Answer := result x (s.readV x &&& s.readV y) s

/-- xor (R115). -/
def execBitXor (x y : Nibble) (s : State) : Answer := result x (s.readV x ^^^ s.readV y) s

/-- random-and (R116). -/
def execRandomAnd (x : Nibble) (kk : Byte) (s : State) : Answer := result x (s.nextRandom &&& kk) s.drawRandom

end Sys2Proof.Machine
end

