-- ==== Sys2Proof/Machine/Skips.lean ====
section
/-! DEFINITION. The four skips (`41_skips.md`). -/

namespace Sys2Proof.Machine

/-- skip-if-equal-immediate (R100). -/
def execSkipEqImm (x : Nibble) (kk : Byte) (s : State) : Answer := .next (s.skipIf (s.readV x == kk))

/-- skip-if-not-equal-immediate (R101). -/
def execSkipNeImm (x : Nibble) (kk : Byte) (s : State) : Answer := .next (s.skipIf (s.readV x != kk))

/-- skip-if-registers-equal (R102). -/
def execSkipEqReg (x y : Nibble) (s : State) : Answer := .next (s.skipIf (s.readV x == s.readV y))

/-- skip-if-registers-not-equal (R103). -/
def execSkipNeReg (x y : Nibble) (s : State) : Answer := .next (s.skipIf (s.readV x != s.readV y))

end Sys2Proof.Machine
end

