-- ==== Sys2Proof/Syntax.lean ====
section
/-! DEFINITION. The instructions, one constructor per row of `spec/opcode_table.json` (`30_encoding.md` R78), in its order. -/

namespace Sys2Proof

/-- The 21 mapped forms of `30_encoding.md` R71 with the fields of R76: `x` and `y` are register indices, `kk`, `nnn`
and `n` literals. Every other word is the form Unknown, which the decoder reports by name (R81). -/
inductive Instr where
  /-- clear-screen, `00E0` (R130). -/
  | clearScreen
  /-- return, `00EE` (R90). -/
  | ret
  /-- jump, `1nnn` (R91). -/
  | jump (nnn : Addr)
  /-- call, `2nnn` (R92). -/
  | call (nnn : Addr)
  /-- skip-if-equal-immediate, `3xkk` (R100). -/
  | skipEqImm (x : Nibble) (kk : Byte)
  /-- skip-if-not-equal-immediate, `4xkk` (R101). -/
  | skipNeImm (x : Nibble) (kk : Byte)
  /-- skip-if-registers-equal, `5xy0` (R102). -/
  | skipEqReg (x y : Nibble)
  /-- load-immediate, `6xkk` (R110). -/
  | loadImm (x : Nibble) (kk : Byte)
  /-- add-immediate, `7xkk` (R111). -/
  | addImm (x : Nibble) (kk : Byte)
  /-- copy, `8xy0` (R112). -/
  | copy (x y : Nibble)
  /-- or, `8xy1` (R113). -/
  | bitOr (x y : Nibble)
  /-- and, `8xy2` (R114). -/
  | bitAnd (x y : Nibble)
  /-- xor, `8xy3` (R115). -/
  | bitXor (x y : Nibble)
  /-- skip-if-registers-not-equal, `9xy0` (R103). -/
  | skipNeReg (x y : Nibble)
  /-- set-index, `Annn` (R120). -/
  | setIndex (nnn : Addr)
  /-- jump-with-offset, `Bnnn` (R93). -/
  | jumpOffset (nnn : Addr)
  /-- random-and, `Cxkk` (R116). -/
  | randomAnd (x : Nibble) (kk : Byte)
  /-- draw-sprite, `Dxyn` (R133). -/
  | drawSprite (x y n : Nibble)
  /-- set-delay-timer, `Fx15` (R122). -/
  | setDelay (x : Nibble)
  /-- set-sound-timer, `Fx18` (R123). -/
  | setSound (x : Nibble)
  /-- add-to-index, `Fx1E` (R121). -/
  | addIndex (x : Nibble)
deriving DecidableEq, Repr

end Sys2Proof
end

