-- ==== Sys2Proof/WellFormed.lean ====
section
/-! DEFINITION. The checks on an instruction's fields (`30_encoding.md` R76, R77) and on an instruction word, which is
mapped when a row of the opcode map selects it by mask and match (R78, R81). -/

namespace Sys2Proof

/-- A register index is 0 to 15 (R76). -/
def fitsRegister (k : Nat) : Bool := decide (k < 16)

/-- The sprite height `n` is 0 to 15 (R76). -/
def fitsHeight (k : Nat) : Bool := decide (k ≤ 15)

/-- The literal `kk` is 0 to 255 (R76). -/
def fitsByte (k : Nat) : Bool := decide (k ≤ 255)

/-- The address `nnn` is 0 to 0xFFF (R76). -/
def fitsAddress (k : Nat) : Bool := decide (k ≤ 0xFFF)

/-- Every field of the instruction is in the range R76 gives it. The fields' types have exactly these widths, so every
instruction passes: no operand value is reserved or illegal on this hardware (R83). -/
def Instr.wellFormed : Instr → Bool
  | .clearScreen => true
  | .ret => true
  | .jump nnn => fitsAddress nnn.toNat
  | .call nnn => fitsAddress nnn.toNat
  | .skipEqImm x kk => fitsRegister x.toNat && fitsByte kk.toNat
  | .skipNeImm x kk => fitsRegister x.toNat && fitsByte kk.toNat
  | .skipEqReg x y => fitsRegister x.toNat && fitsRegister y.toNat
  | .loadImm x kk => fitsRegister x.toNat && fitsByte kk.toNat
  | .addImm x kk => fitsRegister x.toNat && fitsByte kk.toNat
  | .copy x y => fitsRegister x.toNat && fitsRegister y.toNat
  | .bitOr x y => fitsRegister x.toNat && fitsRegister y.toNat
  | .bitAnd x y => fitsRegister x.toNat && fitsRegister y.toNat
  | .bitXor x y => fitsRegister x.toNat && fitsRegister y.toNat
  | .skipNeReg x y => fitsRegister x.toNat && fitsRegister y.toNat
  | .setIndex nnn => fitsAddress nnn.toNat
  | .jumpOffset nnn => fitsAddress nnn.toNat
  | .randomAnd x kk => fitsRegister x.toNat && fitsByte kk.toNat
  | .drawSprite x y n => fitsRegister x.toNat && fitsRegister y.toNat && fitsHeight n.toNat
  | .setDelay x => fitsRegister x.toNat
  | .setSound x => fitsRegister x.toNat
  | .addIndex x => fitsRegister x.toNat

/-- A row of the opcode map: it selects the words `w` with `w &&& mask = pattern` (R78, column "match"). -/
structure OpcodeRow where
  mnemonic : String
  pattern : Word
  mask : Word
deriving DecidableEq, Repr

/-- The row selects the word (R78). -/
def OpcodeRow.selects (r : OpcodeRow) (w : Word) : Bool := decide (w &&& r.mask = r.pattern)

/-- The opcode map of R78, row for row. -/
def opcodeMap : List OpcodeRow :=
  [⟨"clear-screen", 0x00E0, 0xFFFF⟩, ⟨"return", 0x00EE, 0xFFFF⟩, ⟨"jump", 0x1000, 0xF000⟩,
   ⟨"call", 0x2000, 0xF000⟩, ⟨"skip-if-equal-immediate", 0x3000, 0xF000⟩,
   ⟨"skip-if-not-equal-immediate", 0x4000, 0xF000⟩, ⟨"skip-if-registers-equal", 0x5000, 0xF00F⟩] ++
  [⟨"load-immediate", 0x6000, 0xF000⟩, ⟨"add-immediate", 0x7000, 0xF000⟩, ⟨"copy", 0x8000, 0xF00F⟩,
   ⟨"or", 0x8001, 0xF00F⟩, ⟨"and", 0x8002, 0xF00F⟩, ⟨"xor", 0x8003, 0xF00F⟩,
   ⟨"skip-if-registers-not-equal", 0x9000, 0xF00F⟩] ++
  [⟨"set-index", 0xA000, 0xF000⟩, ⟨"jump-with-offset", 0xB000, 0xF000⟩, ⟨"random-and", 0xC000, 0xF000⟩,
   ⟨"draw-sprite", 0xD000, 0xF000⟩, ⟨"set-delay-timer", 0xF015, 0xF0FF⟩,
   ⟨"set-sound-timer", 0xF018, 0xF0FF⟩, ⟨"add-to-index", 0xF01E, 0xF0FF⟩]

/-- The word is mapped: some row of the opcode map selects it. Every other word is Unknown (R81). -/
def wordMapped (w : Word) : Bool := opcodeMap.any fun r => r.selects w

/-- The row of the opcode map an instruction belongs to (R78). -/
def Instr.row : Instr → OpcodeRow
  | .clearScreen => ⟨"clear-screen", 0x00E0, 0xFFFF⟩
  | .ret => ⟨"return", 0x00EE, 0xFFFF⟩
  | .jump _ => ⟨"jump", 0x1000, 0xF000⟩
  | .call _ => ⟨"call", 0x2000, 0xF000⟩
  | .skipEqImm _ _ => ⟨"skip-if-equal-immediate", 0x3000, 0xF000⟩
  | .skipNeImm _ _ => ⟨"skip-if-not-equal-immediate", 0x4000, 0xF000⟩
  | .skipEqReg _ _ => ⟨"skip-if-registers-equal", 0x5000, 0xF00F⟩
  | .loadImm _ _ => ⟨"load-immediate", 0x6000, 0xF000⟩
  | .addImm _ _ => ⟨"add-immediate", 0x7000, 0xF000⟩
  | .copy _ _ => ⟨"copy", 0x8000, 0xF00F⟩
  | .bitOr _ _ => ⟨"or", 0x8001, 0xF00F⟩
  | .bitAnd _ _ => ⟨"and", 0x8002, 0xF00F⟩
  | .bitXor _ _ => ⟨"xor", 0x8003, 0xF00F⟩
  | .skipNeReg _ _ => ⟨"skip-if-registers-not-equal", 0x9000, 0xF00F⟩
  | .setIndex _ => ⟨"set-index", 0xA000, 0xF000⟩
  | .jumpOffset _ => ⟨"jump-with-offset", 0xB000, 0xF000⟩
  | .randomAnd _ _ => ⟨"random-and", 0xC000, 0xF000⟩
  | .drawSprite _ _ _ => ⟨"draw-sprite", 0xD000, 0xF000⟩
  | .setDelay _ => ⟨"set-delay-timer", 0xF015, 0xF0FF⟩
  | .setSound _ => ⟨"set-sound-timer", 0xF018, 0xF0FF⟩
  | .addIndex _ => ⟨"add-to-index", 0xF01E, 0xF0FF⟩

end Sys2Proof
end

