-- ==== Sys2Proof/Decode.lean ====
section
/-! DEFINITION. The decoder (`30_encoding.md` R71, R76, R80), total on words and on bytes, and the encoder (R86). -/

namespace Sys2Proof

/-- The opcode class `w[15:12]` (R75). -/
def fieldClass (w : Word) : Nibble := w.extractLsb' 12 4

/-- `x = w[11:8]` (R76). -/
def fieldX (w : Word) : Nibble := w.extractLsb' 8 4

/-- `y = w[7:4]` (R76). -/
def fieldY (w : Word) : Nibble := w.extractLsb' 4 4

/-- `n = w[3:0]` (R76). -/
def fieldN (w : Word) : Nibble := w.extractLsb' 0 4

/-- `kk = w[7:0]` (R76). -/
def fieldKK (w : Word) : Byte := w.extractLsb' 0 8

/-- `nnn = w[11:0]` (R76). -/
def fieldNNN (w : Word) : Addr := w.extractLsb' 0 12

/-- The decision tree of R80 on the opcode class. `none` is the form Unknown (R81): fixed nibbles are matched exactly
(D3, log entry 2). -/
def decodeWord (w : Word) : Option Instr :=
  match fieldClass w with
  | 0x0#4 => if w = 0x00E0 then some .clearScreen else if w = 0x00EE then some .ret else none
  | 0x1#4 => some (.jump (fieldNNN w))
  | 0x2#4 => some (.call (fieldNNN w))
  | 0x3#4 => some (.skipEqImm (fieldX w) (fieldKK w))
  | 0x4#4 => some (.skipNeImm (fieldX w) (fieldKK w))
  | 0x5#4 => if fieldN w = 0 then some (.skipEqReg (fieldX w) (fieldY w)) else none
  | 0x6#4 => some (.loadImm (fieldX w) (fieldKK w))
  | 0x7#4 => some (.addImm (fieldX w) (fieldKK w))
  | 0x8#4 =>
    match fieldN w with
    | 0x0#4 => some (.copy (fieldX w) (fieldY w))
    | 0x1#4 => some (.bitOr (fieldX w) (fieldY w))
    | 0x2#4 => some (.bitAnd (fieldX w) (fieldY w))
    | 0x3#4 => some (.bitXor (fieldX w) (fieldY w))
    | _ => none
  | 0x9#4 => if fieldN w = 0 then some (.skipNeReg (fieldX w) (fieldY w)) else none
  | 0xA#4 => some (.setIndex (fieldNNN w))
  | 0xB#4 => some (.jumpOffset (fieldNNN w))
  | 0xC#4 => some (.randomAnd (fieldX w) (fieldKK w))
  | 0xD#4 => some (.drawSprite (fieldX w) (fieldY w) (fieldN w))
  | 0xF#4 =>
    match fieldKK w with
    | 0x15#8 => some (.setDelay (fieldX w))
    | 0x18#8 => some (.setSound (fieldX w))
    | 0x1E#8 => some (.addIndex (fieldX w))
    | _ => none
  | _ => none

/-- Why a byte sequence is no instruction. -/
inductive Reject where
  /-- The first two bytes form a word of the form Unknown (R81). -/
  | unmapped (w : Word)
  /-- Fewer than two bytes are left; every instruction has two (R73). -/
  | truncated
deriving DecidableEq, Repr

/-- The word two bytes form, most significant byte first (`20_memory.md` R50). -/
def joinBytes (hi lo : Byte) : Word := hi ++ lo

/-- Decode the first instruction of a byte sequence and give what follows it (R73, R74). -/
def decode : List Byte → Except Reject (Instr × List Byte)
  | hi :: lo :: rest =>
    match decodeWord (joinBytes hi lo) with
    | some i => .ok (i, rest)
    | none => .error (.unmapped (joinBytes hi lo))
  | _ => .error .truncated

/-- Assembly of format NNN: `class<<12 | nnn` (R86). -/
def assembleNNN (c : Nibble) (nnn : Addr) : Word := c ++ nnn

/-- Assembly of format XKK: `class<<12 | x<<8 | kk` (R86). -/
def assembleXKK (c x : Nibble) (kk : Byte) : Word := c ++ x ++ kk

/-- Assembly of formats XY and XYN: `class<<12 | x<<8 | y<<4 | low` (R86). -/
def assembleXYN (c x y n : Nibble) : Word := c ++ x ++ y ++ n

/-- Assembly of an instruction's word from its fields (R86, patterns of R78). -/
def encodeWord : Instr → Word
  | .clearScreen => 0x00E0
  | .ret => 0x00EE
  | .jump nnn => assembleNNN 0x1 nnn
  | .call nnn => assembleNNN 0x2 nnn
  | .skipEqImm x kk => assembleXKK 0x3 x kk
  | .skipNeImm x kk => assembleXKK 0x4 x kk
  | .skipEqReg x y => assembleXYN 0x5 x y 0x0
  | .loadImm x kk => assembleXKK 0x6 x kk
  | .addImm x kk => assembleXKK 0x7 x kk
  | .copy x y => assembleXYN 0x8 x y 0x0
  | .bitOr x y => assembleXYN 0x8 x y 0x1
  | .bitAnd x y => assembleXYN 0x8 x y 0x2
  | .bitXor x y => assembleXYN 0x8 x y 0x3
  | .skipNeReg x y => assembleXYN 0x9 x y 0x0
  | .setIndex nnn => assembleNNN 0xA nnn
  | .jumpOffset nnn => assembleNNN 0xB nnn
  | .randomAnd x kk => assembleXKK 0xC x kk
  | .drawSprite x y n => assembleXYN 0xD x y n
  | .setDelay x => assembleXKK 0xF x 0x15
  | .setSound x => assembleXKK 0xF x 0x18
  | .addIndex x => assembleXKK 0xF x 0x1E

/-- The byte at the lower address, `w[15:8]` (R86). -/
def highByte (w : Word) : Byte := w.extractLsb' 8 8

/-- The byte at the higher address, `w[7:0]` (R86). -/
def lowByte (w : Word) : Byte := w.extractLsb' 0 8

/-- The two bytes of an instruction as they stand in memory (R86). -/
def encode (i : Instr) : List Byte := [highByte (encodeWord i), lowByte (encodeWord i)]

/-- The 16-bit word of an opcode-table row: `nbits` bits of `w`, the bits above them 0. -/
def tableWord (nbits w : Nat) : Word := BitVec.ofNat 16 (w % 2 ^ nbits)

/-- The instruction the decoder reads from a word numbered as `spec/opcode_table.json` numbers its bits, laid out as
memory holds it: the high byte first. -/
def decodeTableWord (nbits w : Nat) : Option Instr :=
  match decode [highByte (tableWord nbits w), lowByte (tableWord nbits w)] with
  | .ok (i, _) => some i
  | .error _ => none

end Sys2Proof
end

