-- ==== Sys2Proof/Machine/Fetch.lean ====
section
/-! DEFINITION. The front of a step: range check, fetch and decode (`30_encoding.md` R70, R71), the Unknown form
(`45_unmapped_words.md` R140), and the placing of a word where the next step fetches. -/

namespace Sys2Proof.Machine

/-- The range check and the fetch (`30_encoding.md` R70). -/
def fetchWord (s : State) : Except ErrorKind Word :=
  if s.pc.toNat > 0xFFE then .error (.fetchOutOfRange s.pc) else .ok (Memory.fetch16 s.mem s.pc.toNat)

/-- The form a fetched word is executed as: an instruction, or Unknown with its error (`30_encoding.md` R71, R81,
`45_unmapped_words.md` R140). -/
def decodeFetched (w : Word) (s : State) : Except ErrorKind Instr :=
  match decodeWord w with
  | some i => .ok i
  | none => .error (.unimplementedOpcode w s.pc)

/-- Fetch and decode, in the order of priority of `60_exceptions.md` R161. -/
def fetchDecode (s : State) : Except ErrorKind Instr :=
  match fetchWord s with
  | .ok w => decodeFetched w s
  | .error e => .error e

/-- The state with the word at the program counter, high byte first, where both bytes lie in memory. -/
def placeWord (s : State) (w : Word) : State :=
  if s.pc.toNat > 0xFFE then s
  else { s with mem := Memory.writeBytes s.mem s.pc.toNat [highByte w, lowByte w] }

/-- The state in which the engine has the next transition: a program loaded, running, and a step at the
head of the schedule (log entry 8). -/
def giveEngineTurn (s : State) : State :=
  { s with
    status := .running
    loaded := true
    schedule := match s.schedule with
      | .step :: rest => .step :: rest
      | other => .step :: other }

end Sys2Proof.Machine
end

