-- ==== Sys2Proof/Machine/Step.lean ====
section
/-! DEFINITION. The transitions of the machine: `Step()` of the engine, `Tick()` of the Timer Scheduler, and their
sequence by the schedule (`60_exceptions.md` R169, `70_reset_and_hazards.md` R194). -/

namespace Sys2Proof.Machine

/-- `Step()`: fetch, decode, execute (`30_encoding.md` R70 to R72). It never ticks the timers (`60_exceptions.md`
R170). -/
def engineStep (s : State) : Host.Outcome State Fault Refusal :=
  match fetchDecode s with
  | .ok i => exec i s
  | .error e => raise e s

/-- One transition the host drives. While `status` is `Faulted` there is none (`10_state.md` R40), and before the
session's load none is in order (`70_reset_and_hazards.md` R194, D28; log entry 8). -/
def transition (t : Transition) (s : State) : Host.Outcome State Fault Refusal :=
  match s.status with
  | .faulted e => .fault (.sessionOver e)
  | .running =>
    if s.loaded then
      match t with
      | .step => engineStep s
      | .tick => .next (tick s)
    else .refused .noProgramLoaded

/-- An execution under a finite schedule: its transitions one after the other (`60_exceptions.md` R169). -/
def runSchedule : List Transition → State → Host.Outcome State Fault Refusal
  | [], s => .next s
  | t :: rest, s =>
    match transition t s with
    | .next s' => runSchedule rest s'
    | .fault r => .fault r
    | .refused r => .refused r

/-- One transition of the machine, the one its schedule gives next: supplied by the host, or free (log entry 6). -/
def step (s : State) : Host.Outcome State Fault Refusal :=
  transition s.nextTransition s.takeTransition

/-- The state with an opcode-table word at the program counter and the engine to move, so that `step` fetches and runs
it: the host's load stands behind it (log entry 8). -/
def State.withFetchWord (s : State) (nbits w : Nat) : State :=
  giveEngineTurn (placeWord s (tableWord nbits w))

end Sys2Proof.Machine
end

