-- ==== Sys2Proof/Machine/Session.lean ====
section
/-! DEFINITION. The host's operations on the machine (`70_reset_and_hazards.md` R190, R191, R194, R200). -/

namespace Sys2Proof.Machine

/-- The state after `reset()` on a machine whose font table is `font`, 80 bytes (`00_scope.md` R9, `10_state.md`
R43): the parameter `FONT` at any value. `State.reset` is the machine with the default table (log entry 3). -/
def State.resetWith (font : List Byte) : State :=
  { State.reset with mem := Memory.writeBytes [] 0 (font.take 80) }

/-- `reset()` from any state on a machine whose font table is `font`: every architectural field at its reset value, a
new session with no call made and no program loaded; the inputs stay what the environment supplies
(`70_reset_and_hazards.md` R190). The counters of the free values go on too, so that a new session's free transitions,
answers and bytes are fresh ones and none repeats an earlier session's: the spec gives the draws of two sessions no
relation, and that none is assumed is log entries 4, 5 and 6 (DESIGN CHOICE). -/
def hostReset (font : List Byte) (s : State) : State :=
  { State.resetWith font with
    schedule := s.schedule, moves := s.moves, displayInput := s.displayInput, answers := s.answers,
    randomInput := s.randomInput, draws := s.draws }

/-- The state is one `reset()` left: nothing but the font table, which is a parameter, and the environment's inputs with
their counters may differ from `State.reset`. -/
def freshlyReset (s : State) : Bool :=
  decide ({ s with
    mem := [], schedule := [], moves := 0, displayInput := [], answers := 0, randomInput := [],
    draws := 0 } = State.reset) &&
    s.mem.all fun c => decide (c.1 < 0x50)

/-- The largest program, 0xE00 bytes (`70_reset_and_hazards.md` R192). -/
def maxProgram : Nat := 0xE00

/-- `load_program(bytes)` (`70_reset_and_hazards.md` R191). A load in any other place of a session is refused (R194,
D28; log entry 8). -/
def loadProgram (bytes : List Byte) (s : State) : Answer :=
  if freshlyReset s then
    if bytes.length > maxProgram then raise .programTooLarge s
    else .next { s with mem := Memory.writeBytes s.mem 0x200 bytes, loaded := true }
  else .refused .loadOutOfOrder

/-- The start of a session: `reset()`, then `load_program(bytes)` (`70_reset_and_hazards.md` R194). -/
def boot (bytes : List Byte) : Answer := loadProgram bytes State.reset

/-- What the host reports: the error kind and its payload, if an error has ended the session
(`60_exceptions.md` R159, `70_reset_and_hazards.md` R200). -/
def State.report (s : State) : Option ErrorKind :=
  match s.status with
  | .running => none
  | .faulted e => some e

end Sys2Proof.Machine
end

