-- ==== Sys2Proof/Machine/Execution.lean ====
section
/-! DEFINITION. Executions under an infinite schedule (`60_exceptions.md` R169): the schedule is an argument, any infinite
sequence of steps and ticks, and an execution is what its finite beginnings answer. -/

namespace Sys2Proof.Machine

/-- The first `n` transitions of an infinite schedule. -/
def firstTransitions (σ : Nat → Transition) (n : Nat) : List Transition := (List.range n).map σ

/-- The execution of an infinite schedule after its first `n` transitions (`60_exceptions.md` R169). -/
def runFirst (σ : Nat → Transition) (n : Nat) (s : State) : Answer := runSchedule (firstTransitions σ n) s

end Sys2Proof.Machine
end

