-- ==== Sys2Proof/Safety.lean ====
section
/-! DEFINITION. What claims are stated in: the running states, the invariant of `10_state.md` R48, the parts of the
state that a transition keeps, and the end of a run. -/

namespace Sys2Proof.Machine

/-- The session is alive (`10_state.md` R40). -/
abbrev State.Running (s : State) : Prop := s.status = .running

/-- The session has transitions: its program is loaded and no error has ended it (`70_reset_and_hazards.md` R194,
`10_state.md` R40). -/
abbrev State.Live (s : State) : Prop := s.status = .running ∧ s.loaded = true

/-- The bounds of `10_state.md` R48 on the program counter and the live stack entries, and the canonical form of the
memory. The bounds on `SP` and `I` are their types'. -/
structure State.Inv (s : State) : Prop where
  pcBound : s.pc.toNat ≤ 0x10FE
  stackBound : ∀ k : Fin 16, k.val < s.sp.val → s.stack[k].toNat ≤ 0x1000
  memWf : Memory.wf s.mem = true

/-- Every byte of memory reads the same. -/
def SameMemory (s t : State) : Prop := ∀ a : Nat, Memory.read t.mem a = Memory.read s.mem a

/-- Every general register reads the same. -/
def SameRegisters (s t : State) : Prop := ∀ r : Nibble, t.readV r = s.readV r

/-- Every general register but `x` reads the same. -/
def SameRegistersBut (x : Nibble) (s t : State) : Prop := ∀ r : Nibble, r ≠ x → t.readV r = s.readV r

/-- The call stack, live and stale entries, is the same. -/
def SameStack (s t : State) : Prop := t.sp = s.sp ∧ t.stack = s.stack

/-- The timers are the same. -/
def SameTimers (s t : State) : Prop := t.dt = s.dt ∧ t.st = s.st

/-- The Display calls made and the answers still to come are the same. -/
def SameDisplay (s t : State) : Prop :=
  t.calls = s.calls ∧ t.displayInput = s.displayInput ∧ t.answers = s.answers

/-- The random source is the same. -/
def SameRandom (s t : State) : Prop := t.randomInput = s.randomInput ∧ t.draws = s.draws

/-- The session's bookkeeping is the same: run status, schedule with the place in it, and load mark. -/
def SameSession (s t : State) : Prop :=
  t.status = s.status ∧ t.schedule = s.schedule ∧ t.moves = s.moves ∧ t.loaded = s.loaded

/-- Every piece of architectural state but the run status is the same (`60_exceptions.md` R159, R160). -/
def SameCore (s t : State) : Prop :=
  SameRegisters s t ∧ t.pc = s.pc ∧ t.index = s.index ∧ SameStack s t ∧ SameTimers s t ∧ SameMemory s t

/-- Nothing outside the general registers and the program counter differs: the frame of an instruction whose only
destination is a register (`42_register_ops.md`). -/
def SameOutsideRegisters (s t : State) : Prop :=
  t.index = s.index ∧ SameStack s t ∧ SameTimers s t ∧ SameMemory s t ∧ SameDisplay s t ∧ SameRandom s t ∧
    SameSession s t

/-- Nothing but the program counter differs: the frame of the skips and of the two jumps (`41_skips.md`,
`40_control_flow.md`). -/
def SameButPc (s t : State) : Prop := SameRegisters s t ∧ SameOutsideRegisters s t

/-- The states agree in everything but `DT` and `ST` (`60_exceptions.md` R171). -/
def SameButTimers (s t : State) : Prop := t = { s with dt := t.dt, st := t.st }

/-- The number of engine steps in a schedule. -/
def engineSteps (l : List Transition) : Nat := l.count .step

/-- Weak fairness of an infinite schedule between the engine and the Timer Scheduler: an agent that from some place on
can always move does move after it. Either agent can move exactly in a live state. A claim that wants liveness takes this
as a premise, and the machine assumes it nowhere (`70_reset_and_hazards.md` R209, the spec's decision D16). -/
def WeaklyFair (σ : Nat → Transition) (s : State) : Prop :=
  ∀ (t : Transition) (n : Nat), (∀ m, n ≤ m → ∃ u, runFirst σ m s = .next u ∧ u.Live) → ∃ m, n ≤ m ∧ σ m = t

/-- The general register an instruction writes, if it writes one (`10_state.md` R21, R30). -/
def destination : Instr → Option Nibble
  | .loadImm x _ => some x
  | .addImm x _ => some x
  | .copy x _ => some x
  | .bitOr x _ => some x
  | .bitAnd x _ => some x
  | .bitXor x _ => some x
  | .randomAnd x _ => some x
  | .drawSprite _ _ _ => some flagRegister
  | .clearScreen => none
  | .ret => none
  | .jump _ => none
  | .call _ => none
  | .skipEqImm _ _ => none
  | .skipNeImm _ _ => none
  | .skipEqReg _ _ => none
  | .skipNeReg _ _ => none
  | .setIndex _ => none
  | .jumpOffset _ => none
  | .setDelay _ => none
  | .setSound _ => none
  | .addIndex _ => none

/-- The instructions that set the program counter themselves (`10_state.md` R26). -/
def setsPc : Instr → Bool
  | .clearScreen => false
  | .ret => true
  | .jump _ => true
  | .call _ => true
  | .skipEqImm _ _ => false
  | .skipNeImm _ _ => false
  | .skipEqReg _ _ => false
  | .loadImm _ _ => false
  | .addImm _ _ => false
  | .copy _ _ => false
  | .bitOr _ _ => false
  | .bitAnd _ _ => false
  | .bitXor _ _ => false
  | .skipNeReg _ _ => false
  | .setIndex _ => false
  | .jumpOffset _ => true
  | .randomAnd _ _ => false
  | .drawSprite _ _ _ => false
  | .setDelay _ => false
  | .setSound _ => false
  | .addIndex _ => false

/-- The four skips (`41_skips.md`). -/
def isSkip : Instr → Bool
  | .clearScreen => false
  | .ret => false
  | .jump _ => false
  | .call _ => false
  | .skipEqImm _ _ => true
  | .skipNeImm _ _ => true
  | .skipEqReg _ _ => true
  | .loadImm _ _ => false
  | .addImm _ _ => false
  | .copy _ _ => false
  | .bitOr _ _ => false
  | .bitAnd _ _ => false
  | .bitXor _ _ => false
  | .skipNeReg _ _ => true
  | .setIndex _ => false
  | .jumpOffset _ => false
  | .randomAnd _ _ => false
  | .drawSprite _ _ _ => false
  | .setDelay _ => false
  | .setSound _ => false
  | .addIndex _ => false

/-- The call stack never gets shallower than `d` along a run (`40_control_flow.md` R95). -/
def StaysAbove (d : Nat) (l : List Transition) (s : State) : Prop :=
  ∀ (k : Nat) (u : State), runSchedule (l.take k) s = .next u → d ≤ u.sp.val

/-- No step along a run of the schedule executes an instruction with the property. -/
def StepsAvoid (p : Instr → Prop) (l : List Transition) (s : State) : Prop :=
  ∀ (k : Nat) (u : State) (i : Instr), runSchedule (l.take k) s = .next u → l[k]? = some .step →
    fetchDecode u = .ok i → ¬ p i

/-- Calls nested in each other: the meanings of call with these targets, one after the other. -/
def nestCalls : List Addr → State → Answer
  | [], s => .next s
  | nnn :: rest, s =>
    match exec (.call nnn) s with
    | .next t => nestCalls rest t
    | .fault r => .fault r
    | .refused r => .refused r

/-- The error a step of a live state raises, each with the condition under which it does, the conditions in the
order of priority of `60_exceptions.md` R161. -/
inductive StepRaises (s : State) : ErrorKind → Prop where
  | fetch (h : 0xFFE < s.pc.toNat) : StepRaises s (.fetchOutOfRange s.pc)
  | unknown (h : s.pc.toNat ≤ 0xFFE) (hd : decodeWord (Memory.fetch16 s.mem s.pc.toNat) = none) :
      StepRaises s (.unimplementedOpcode (Memory.fetch16 s.mem s.pc.toNat) s.pc)
  | overflow (nnn : Addr) (h : fetchDecode s = .ok (.call nnn)) (hs : s.sp.val = 16) :
      StepRaises s .stackOverflow
  | underflow (h : fetchDecode s = .ok .ret) (hs : s.sp.val = 0) : StepRaises s .stackUnderflow
  | sprite (x y n : Nibble) (h : fetchDecode s = .ok (.drawSprite x y n))
      (hr : memSize < s.index.toNat + n.toNat) : StepRaises s (.memoryOutOfRange s.index n)
  | clear (info : FailureInfo) (h : fetchDecode s = .ok .clearScreen) (ha : s.nextAnswer = .fails info) :
      StepRaises s (.collaboratorFailure info)
  | draw (x y n : Nibble) (info : FailureInfo) (h : fetchDecode s = .ok (.drawSprite x y n))
      (hr : s.index.toNat + n.toNat ≤ memSize) (ha : s.nextAnswer = .fails info) :
      StepRaises s (.collaboratorFailure info)

/-- The program has finished: the program counter is at a jump to itself (`70_reset_and_hazards.md` R210, a convention
of the spec). -/
def State.Finished (s : State) : Prop :=
  ∃ nnn : Addr, fetchDecode s = .ok (.jump nnn) ∧ s.pc = absoluteTarget nnn

/-- A safe run: it ends in a state in which no error has been raised. -/
def SafeRun (l : List Transition) (s : State) : Prop := ∃ t, runSchedule l s = .next t ∧ t.Running

end Sys2Proof.Machine
end

