-- ==== Sys2Proof/Certificates/Slice0/Obligations.lean ====
section
/-! DEFINITION. The statements for the provers, each with the rule of `spec/` it formalises. -/

open Sys2Proof Sys2Proof.Machine

/-! ### Encoding and decoding -/

/-- Decoding an encoded instruction gives it back, with the bytes that follow it left over: every instruction, every
value of every field (`30_encoding.md` R86, first half of its last sentence). Patterns and field places are the spec's
decisions D1, D2: log entry 1. -/
def Obligations.DecodeOfEncodeIsIdentity : Prop :=
  ∀ (i : Instr) (rest : List Byte), i.wellFormed = true → decode (encode i ++ rest) = .ok (i, rest)

/-- Assembling a decoded word gives the word back: no two words decode to one instruction and no bit of a mapped word
is dropped (`30_encoding.md` R86, second half of its last sentence). Patterns are the spec's decisions D1, D2: log
entry 1. -/
def Obligations.EncodeOfDecodeIsIdentity : Prop :=
  ∀ (w : Word) (i : Instr), decodeWord w = some i → encodeWord i = w

/-- The decoder of R80 agrees with the opcode map of R78: a decoded instruction's row selects the word, and a word is
Unknown exactly when no row selects it. D1 and the strict match D3 are the spec's decisions: log entries 1, 2. -/
def Obligations.DecoderFollowsTheOpcodeMap : Prop :=
  (∀ (w : Word) (i : Instr), decodeWord w = some i → i.row ∈ opcodeMap ∧ i.row.selects w = true) ∧
  (∀ w : Word, decodeWord w = none ↔ wordMapped w = false)

/-- The map has 21 rows and no word is selected by two of them (`30_encoding.md` R79, its disjointness). The patterns
are the spec's decision D1: log entry 1. -/
def Obligations.OpcodeRowsAreDisjoint : Prop :=
  opcodeMap.length = 21 ∧
  ∀ (w : Word) (r q : OpcodeRow), r ∈ opcodeMap → q ∈ opcodeMap → r.selects w = true → q.selects w = true → r = q

/-- The unmapped words class by class (`30_encoding.md` R81, R82): in classes 0, 5, 8, 9 and F the listed ones, in
class E all, in every other class none. D1 and the strict match D3 are the spec's decisions: log entries 1, 2. -/
def Obligations.UnmappedWordsByClass : Prop :=
  ∀ w : Word, decodeWord w = none ↔
    (fieldClass w = 0x0 ∧ w ≠ 0x00E0 ∧ w ≠ 0x00EE) ∨ (fieldClass w = 0x5 ∧ fieldN w ≠ 0) ∨
    (fieldClass w = 0x8 ∧ 4 ≤ (fieldN w).toNat) ∨ (fieldClass w = 0x9 ∧ fieldN w ≠ 0) ∨ fieldClass w = 0xE ∨
    (fieldClass w = 0xF ∧ fieldKK w ≠ 0x15 ∧ fieldKK w ≠ 0x18 ∧ fieldKK w ≠ 0x1E)

/-- A word is assembled from its fields as R86 says, written as a sum, and stands in memory high byte first. Field
places are the spec's decision D2: log entry 1. -/
def Obligations.WordsAreAssembledFromTheirFields : Prop :=
  (∀ (c : Nibble) (nnn : Addr), (assembleNNN c nnn).toNat = c.toNat * 4096 + nnn.toNat) ∧
  (∀ (c x : Nibble) (kk : Byte), (assembleXKK c x kk).toNat = c.toNat * 4096 + x.toNat * 256 + kk.toNat) ∧
  (∀ c x y n : Nibble,
    (assembleXYN c x y n).toNat = c.toNat * 4096 + x.toNat * 256 + y.toNat * 16 + n.toNat) ∧
  (∀ i : Instr, ∃ hi lo : Byte, encode i = [hi, lo] ∧ (encodeWord i).toNat = hi.toNat * 256 + lo.toNat)

/-- Words written out from the patterns of R78, one for each family, decode to the instruction they stand for, and
near misses do not decode (`95_test_vectors.md` FD1 to FD9, derived from R78, R80, R81). Patterns are the spec's
decision D1: log entry 1 (PRESUMED). That a near miss, or a word of a reserved instruction, does not decode is its strict
match and Unknown reading, decisions D3, D4: log entry 2 (DESIGN CHOICE). -/
def Obligations.WordsOfEachFamilyDecodeAsTheMapSays : Prop :=
  decodeWord 0x00E0 = some .clearScreen ∧ decodeWord 0x00EE = some .ret ∧
  decodeWord 0x12F0 = some (.jump 0x2F0) ∧ decodeWord 0xBABC = some (.jumpOffset 0xABC) ∧
  decodeWord 0x332A = some (.skipEqImm 3 0x2A) ∧ decodeWord 0x9120 = some (.skipNeReg 1 2) ∧
  decodeWord 0x6A5B = some (.loadImm 0xA 0x5B) ∧ decodeWord 0x8123 = some (.bitXor 1 2) ∧
  decodeWord 0xF31E = some (.addIndex 3) ∧ decodeWord 0xD12F = some (.drawSprite 1 2 15) ∧
  decodeWord 0x5121 = none ∧ decodeWord 0x8124 = none ∧ decodeWord 0xE0A1 = none ∧ decodeWord 0x0000 = none

/-! ### The step -/

/-- When a program is loaded, no error has been raised, the engine has the next transition and the bytes at the program
counter decode to a well-formed instruction, `step` is the instruction's meaning at that state, the transition being
taken off the schedule input (`30_encoding.md` R70, R72). The input's form is the model's choice: log entry 6. What the
bytes decode to rests on the spec's decisions D1 to D3: log entries 1, 2. -/
def Obligations.StepRunsTheDecodedInstruction : Prop :=
  ∀ (s : State) (i : Instr), s.Live → s.nextTransition = .step → s.pc.toNat ≤ 0xFFE → i.wellFormed = true →
    decode [Memory.read s.mem s.pc.toNat, Memory.read s.mem (s.pc.toNat + 1)] = .ok (i, []) →
    step s = exec i s.takeTransition

/-- A word placed at the program counter, at an even or an odd address, is what the next fetch reads
(`20_memory.md` R50, R52). No alignment is asked: the spec's decision D7, log entry 11 (DESIGN CHOICE). That
`withFetchWord` leaves a loaded, running machine in which the engine has the next transition is the model's choice, log
entry 8 (DESIGN CHOICE), and no rule's. -/
def Obligations.PlacedWordIsTheNextFetch : Prop :=
  ∀ (s : State) (nbits w : Nat), Memory.wf s.mem = true → s.pc.toNat ≤ 0xFFE →
    fetchWord (s.withFetchWord nbits w) = .ok (tableWord nbits w) ∧
    (s.withFetchWord nbits w).nextTransition = .step ∧ (s.withFetchWord nbits w).Live

/-- A step that fetches an Unknown word raises UnimplementedOpcode with that word and its address and changes nothing
else (`45_unmapped_words.md` R140). Which words are Unknown rests on the spec's decisions D1 and D3: log entries 1
(PRESUMED) and 2 (DESIGN CHOICE). -/
def Obligations.UnknownWordRaisesUnimplementedOpcode : Prop :=
  ∀ s : State, s.Live → s.pc.toNat ≤ 0xFFE → wordMapped (Memory.fetch16 s.mem s.pc.toNat) = false →
    transition .step s =
      .next { s with status := .faulted (.unimplementedOpcode (Memory.fetch16 s.mem s.pc.toNat) s.pc) }

/-- A step whose two instruction bytes do not both lie in memory raises FetchOutOfRange with the program counter,
whatever memory holds; the counter neither wraps nor moves (`60_exceptions.md` R156). The consequence is the spec's
decision D6: log entry 10. -/
def Obligations.FetchPastMemoryRaisesFetchOutOfRange : Prop :=
  ∀ s : State, s.Live → 0xFFE < s.pc.toNat →
    transition .step s = .next { s with status := .faulted (.fetchOutOfRange s.pc) }

/-- While `status` is Faulted neither agent has a transition: the machine stops, whatever the schedule gives
(`10_state.md` R40, `60_exceptions.md` R164; the fault is the model's way of saying so, log entry 9). -/
def Obligations.FaultedSessionHasNoTransition : Prop :=
  ∀ (s : State) (e : ErrorKind), s.status = .faulted e →
    (∀ t : Transition, transition t s = .fault (.sessionOver e)) ∧ step s = .fault (.sessionOver e)

/-- A machine with its program loaded and no error raised always has a next state: no step and no tick stops it by a
fault or a refusal, whatever the state (`60_exceptions.md` R181, last sentence). -/
def Obligations.RunningMachineAlwaysMoves : Prop :=
  ∀ (s : State) (tr : Transition), s.Live → ∃ t, transition tr s = .next t

/-- A step of a live state ends in an error exactly under the conditions the spec lists, with the kind and payload it
gives, in its order of priority (`60_exceptions.md` R150, R161). The order is the spec's decision D25, and
FetchOutOfRange and MemoryOutOfRange are its D6 and D12: log entries 10, 12. What a word decodes to rests on D1 to D3:
log entries 1, 2. -/
def Obligations.StepRaisesExactlyTheListedErrors : Prop :=
  ∀ (s : State) (e : ErrorKind), s.Live →
    ((∃ t, transition .step s = .next t ∧ t.status = .faulted e) ↔ StepRaises s e)

/-- Errors are precise: a step that raises one changes no register, not the program counter, the index register, the
stack, the timers or memory (`60_exceptions.md` R159, R160). -/
def Obligations.FailingStepChangesNoCoreState : Prop :=
  ∀ (s t : State) (e : ErrorKind), s.Live → transition .step s = .next t → t.status = .faulted e → SameCore s t

/-! ### Control flow -/

/-- return (`40_control_flow.md` R90). That the popped entry keeps its value (`t.stack = s.stack`) is the spec's
decision D8, log entry 18 (DESIGN CHOICE, unsafe for stale entries). The encoding clause rests on D1: log entry 1. -/
def Obligations.ReturnPopsTheReturnAddress : Prop :=
  decodeWord 0x00EE = some .ret ∧
  (∀ s : State, 0 < s.sp.val → ∃ t, exec .ret s = .next t ∧
    (∀ k : Fin 16, k.val + 1 = s.sp.val → t.pc = s.stack[k]) ∧ t.sp.val + 1 = s.sp.val ∧ t.stack = s.stack ∧
    SameRegisters s t ∧ t.index = s.index ∧ SameTimers s t ∧ SameMemory s t ∧ SameDisplay s t ∧ SameRandom s t ∧
    SameSession s t) ∧
  (∀ s : State, s.sp.val = 0 → exec .ret s = .next { s with status := .faulted .stackUnderflow })

/-- jump (`40_control_flow.md` R91): exactly `nnn`, nothing added. The encoding clause rests on D1, D2: log entry 1.
-/
def Obligations.JumpSetsThePcToTheAddress : Prop :=
  ∀ nnn : Addr, decodeWord (assembleNNN 0x1 nnn) = some (.jump nnn) ∧
    ∀ s : State, ∃ t, exec (.jump nnn) s = .next t ∧ t.pc.toNat = nnn.toNat ∧ SameButPc s t

/-- call (`40_control_flow.md` R92): the entry at `SP` becomes the address after the call, every other entry stays. That
`pc + 2` is exact, so that a call at 0xFFE pushes 0x1000, rests on the 16-bit program counter and stack entry of the
spec's decisions D5 and D8, log entries 10 and 18 (DESIGN CHOICE). The encoding clause rests on D1, D2: log entry 1. -/
def Obligations.CallPushesTheNextAddress : Prop :=
  ∀ nnn : Addr, decodeWord (assembleNNN 0x2 nnn) = some (.call nnn) ∧
    (∀ s : State, s.sp.val < 16 → ∃ t, exec (.call nnn) s = .next t ∧ t.pc.toNat = nnn.toNat ∧
      t.sp.val = s.sp.val + 1 ∧
      (∀ k : Fin 16, t.stack[k] = if k.val = s.sp.val then s.pc + 2 else s.stack[k]) ∧
      (s.pc.toNat ≤ 0xFFE → (s.pc + 2).toNat = s.pc.toNat + 2) ∧
      SameRegisters s t ∧ t.index = s.index ∧ SameTimers s t ∧ SameMemory s t ∧ SameDisplay s t ∧ SameRandom s t ∧
      SameSession s t) ∧
    (∀ s : State, s.sp.val = 16 → exec (.call nnn) s = .next { s with status := .faulted .stackOverflow })

/-- jump-with-offset (`40_control_flow.md` R93): the exact sum with register 0, never reduced to 12 bits. The exact
sum is the spec's decision D11, log entry 10; the encoding D1, log entry 1. -/
def Obligations.JumpOffsetAddsRegisterZeroExactly : Prop :=
  ∀ nnn : Addr, decodeWord (assembleNNN 0xB nnn) = some (.jumpOffset nnn) ∧
    ∀ s : State, ∃ t, exec (.jumpOffset nnn) s = .next t ∧ t.pc.toNat = nnn.toNat + (s.readV 0).toNat ∧
      t.pc.toNat ≤ 0x10FE ∧ SameButPc s t

/-- A return that meets the stack at the depth its call left it, with nothing popped below that depth in between,
goes back to the instruction after the call and to the depth before it, whatever ran between them: calls, returns,
other instructions and ticks (`40_control_flow.md` R95). -/
def Obligations.ReturnMatchesItsCall : Prop :=
  ∀ (nnn : Addr) (l : List Transition) (s s₁ s₂ : State), s.sp.val < 16 → exec (.call nnn) s = .next s₁ →
    StaysAbove (s.sp.val + 1) l s₁ → runSchedule l s₁ = .next s₂ → s₂.sp.val = s.sp.val + 1 →
    ∃ t, exec .ret s₂ = .next t ∧ t.pc = s.pc + 2 ∧ t.sp = s.sp

/-! ### Skips -/

/-- skip-if-equal-immediate and skip-if-not-equal-immediate (`41_skips.md` R100, R101). The encoding clause rests on
D1, D2: log entry 1. -/
def Obligations.ImmediateSkipsTestARegisterAgainstALiteral : Prop :=
  ∀ (x : Nibble) (kk : Byte),
    decodeWord (assembleXKK 0x3 x kk) = some (.skipEqImm x kk) ∧
    decodeWord (assembleXKK 0x4 x kk) = some (.skipNeImm x kk) ∧
    ∀ s : State,
      (∃ t, exec (.skipEqImm x kk) s = .next t ∧
        (s.readV x = kk → t.pc = s.pc + 4) ∧ (s.readV x ≠ kk → t.pc = s.pc + 2) ∧ SameButPc s t) ∧
      (∃ t, exec (.skipNeImm x kk) s = .next t ∧
        (s.readV x ≠ kk → t.pc = s.pc + 4) ∧ (s.readV x = kk → t.pc = s.pc + 2) ∧ SameButPc s t)

/-- skip-if-registers-equal and skip-if-registers-not-equal (`41_skips.md` R102, R103). The encoding clauses rest on
D1 to D3: log entries 1, 2. -/
def Obligations.RegisterSkipsTestTwoRegisters : Prop :=
  ∀ x y : Nibble,
    decodeWord (assembleXYN 0x5 x y 0) = some (.skipEqReg x y) ∧
    decodeWord (assembleXYN 0x9 x y 0) = some (.skipNeReg x y) ∧
    (∀ n : Nibble, n ≠ 0 → decodeWord (assembleXYN 0x5 x y n) = none ∧ decodeWord (assembleXYN 0x9 x y n) = none) ∧
    ∀ s : State,
      (∃ t, exec (.skipEqReg x y) s = .next t ∧
        (s.readV x = s.readV y → t.pc = s.pc + 4) ∧ (s.readV x ≠ s.readV y → t.pc = s.pc + 2) ∧ SameButPc s t) ∧
      (∃ t, exec (.skipNeReg x y) s = .next t ∧
        (s.readV x ≠ s.readV y → t.pc = s.pc + 4) ∧ (s.readV x = s.readV y → t.pc = s.pc + 2) ∧ SameButPc s t)

/-- The program counter advances exactly by 2, and by 2 or 4 for a skip, in every completed instruction that does not
set it; no advance wraps (`10_state.md` R26, R28). D5: log entry 10. -/
def Obligations.SequentialAdvanceIsExact : Prop :=
  ∀ (i : Instr) (s t : State), s.pc.toNat ≤ 0xFFE → s.Running → exec i s = .next t → t.Running →
    setsPc i = false →
    (isSkip i = false → t.pc.toNat = s.pc.toNat + 2) ∧
    (isSkip i = true → t.pc.toNat = s.pc.toNat + 2 ∨ t.pc.toNat = s.pc.toNat + 4)

/-! ### General registers and the flag -/

/-- load-immediate (`42_register_ops.md` R110). The encoding clause rests on D1, D2: log entry 1. -/
def Obligations.LoadImmediateWritesTheLiteral : Prop :=
  ∀ (x : Nibble) (kk : Byte), decodeWord (assembleXKK 0x6 x kk) = some (.loadImm x kk) ∧
    ∀ s : State, ∃ t, exec (.loadImm x kk) s = .next t ∧ t.readV x = kk ∧ t.pc = s.pc + 2 ∧
      SameRegistersBut x s t ∧ SameOutsideRegisters s t

/-- add-immediate (`42_register_ops.md` R111): the sum modulo 256, written back, with no flag. That no flag is written
is the spec's decision D10, log entry 13; the encoding D1, log entry 1. -/
def Obligations.AddImmediateWrapsModulo256 : Prop :=
  ∀ (x : Nibble) (kk : Byte), decodeWord (assembleXKK 0x7 x kk) = some (.addImm x kk) ∧
    ∀ s : State, ∃ t, exec (.addImm x kk) s = .next t ∧
      (t.readV x).toNat = ((s.readV x).toNat + kk.toNat) % 256 ∧ t.pc = s.pc + 2 ∧
      SameRegistersBut x s t ∧ SameOutsideRegisters s t

/-- copy (`42_register_ops.md` R112). The encoding clause rests on D1, D2: log entry 1. -/
def Obligations.CopyMovesARegister : Prop :=
  ∀ x y : Nibble, decodeWord (assembleXYN 0x8 x y 0) = some (.copy x y) ∧
    ∀ s : State, ∃ t, exec (.copy x y) s = .next t ∧ t.readV x = s.readV y ∧ t.readV y = s.readV y ∧
      t.pc = s.pc + 2 ∧ SameRegistersBut x s t ∧ SameOutsideRegisters s t

/-- or, and, xor (`42_register_ops.md` R113, R114, R115): bit by bit, no flag; with `x = y`, or and and leave the
register alone and xor clears it. No flag: D10, log entry 13; the encoding D1, log entry 1. -/
def Obligations.BitwiseOperationsCombineTwoRegisters : Prop :=
  ∀ x y : Nibble,
    decodeWord (assembleXYN 0x8 x y 1) = some (.bitOr x y) ∧
    decodeWord (assembleXYN 0x8 x y 2) = some (.bitAnd x y) ∧
    decodeWord (assembleXYN 0x8 x y 3) = some (.bitXor x y) ∧
    ∀ s : State,
      (∃ t, exec (.bitOr x y) s = .next t ∧
        (∀ b : Nat, (t.readV x).getLsbD b = ((s.readV x).getLsbD b || (s.readV y).getLsbD b)) ∧
        (x = y → t.readV x = s.readV x) ∧ t.pc = s.pc + 2 ∧ SameRegistersBut x s t ∧ SameOutsideRegisters s t) ∧
      (∃ t, exec (.bitAnd x y) s = .next t ∧
        (∀ b : Nat, (t.readV x).getLsbD b = ((s.readV x).getLsbD b && (s.readV y).getLsbD b)) ∧
        (x = y → t.readV x = s.readV x) ∧ t.pc = s.pc + 2 ∧ SameRegistersBut x s t ∧ SameOutsideRegisters s t) ∧
      (∃ t, exec (.bitXor x y) s = .next t ∧
        (∀ b : Nat, (t.readV x).getLsbD b = ((s.readV x).getLsbD b != (s.readV y).getLsbD b)) ∧
        (x = y → t.readV x = 0) ∧ t.pc = s.pc + 2 ∧ SameRegistersBut x s t ∧ SameOutsideRegisters s t)

/-- random-and (`42_register_ops.md` R116): the drawn byte masked; no bit outside the mask is ever set, and every
value inside it is the outcome of some draw. The drawn byte is a free value (log entry 4). The encoding clause rests on D1, D2:
log entry 1. -/
def Obligations.RandomAndMasksAnyByte : Prop :=
  ∀ (x : Nibble) (kk : Byte), decodeWord (assembleXKK 0xC x kk) = some (.randomAnd x kk) ∧
    (∀ s : State, ∃ t, exec (.randomAnd x kk) s = .next t ∧ t.readV x = s.nextRandom &&& kk ∧
      t.readV x &&& ~~~kk = 0 ∧ t.pc = s.pc + 2 ∧ SameRegistersBut x s t ∧ t.index = s.index ∧ SameStack s t ∧
      SameTimers s t ∧ SameMemory s t ∧ SameDisplay s t ∧ SameSession s t) ∧
    (∀ (s : State) (b : Byte), b &&& ~~~kk = 0 → ∃ (r : Byte) (t : State),
      exec (.randomAnd x kk) { s with randomInput := r :: s.randomInput } = .next t ∧ t.readV x = b)

/-- Loading a value and copying it to any register puts the value there and leaves it where it was loaded
(`42_register_ops.md` R119). -/
def Obligations.LoadThenCopyCarriesTheValue : Prop :=
  ∀ (r q : Nibble) (b : Byte) (s : State), ∃ t u, exec (.loadImm r b) s = .next t ∧ exec (.copy q r) t = .next u ∧
    u.readV q = b ∧ u.readV r = b

/-- No instruction changes a general register other than the one it names as its destination; draw-sprite's is the
flag register. So no other instruction writes the flag as a side effect (`10_state.md` R21, R22, R30). That no other
instruction writes the flag is the spec's decision D10: log entry 13. -/
def Obligations.RegistersChangeOnlyAtTheDestination : Prop :=
  ∀ (i : Instr) (s t : State), exec i s = .next t → ∀ r : Nibble, destination i ≠ some r → t.readV r = s.readV r

/-! ### Index register and timers -/

/-- set-index (`43_index_and_timers.md` R120). The encoding clause rests on D1, D2: log entry 1. -/
def Obligations.SetIndexLoadsTheAddress : Prop :=
  ∀ nnn : Addr, decodeWord (assembleNNN 0xA nnn) = some (.setIndex nnn) ∧
    ∀ s : State, ∃ t, exec (.setIndex nnn) s = .next t ∧ t.index = nnn ∧ t.pc = s.pc + 2 ∧ SameRegisters s t ∧
      SameStack s t ∧ SameTimers s t ∧ SameMemory s t ∧ SameDisplay s t ∧ SameRandom s t ∧ SameSession s t

/-- add-to-index (`43_index_and_timers.md` R121): modulo 4096, no flag, no error. The wrap is the spec's decision D9,
log entry 14; the encoding D1, log entry 1. -/
def Obligations.AddToIndexWrapsModulo4096 : Prop :=
  ∀ x : Nibble, decodeWord (assembleXKK 0xF x 0x1E) = some (.addIndex x) ∧
    ∀ s : State, ∃ t, exec (.addIndex x) s = .next t ∧
      t.index.toNat = (s.index.toNat + (s.readV x).toNat) % 4096 ∧ t.pc = s.pc + 2 ∧ SameRegisters s t ∧
      SameStack s t ∧ SameTimers s t ∧ SameMemory s t ∧ SameDisplay s t ∧ SameRandom s t ∧ SameSession s t

/-- set-delay-timer and set-sound-timer (`43_index_and_timers.md` R122, R123). The encoding clauses rest on D1, D2:
log entry 1. -/
def Obligations.TimerInstructionsCopyARegister : Prop :=
  ∀ x : Nibble,
    decodeWord (assembleXKK 0xF x 0x15) = some (.setDelay x) ∧
    decodeWord (assembleXKK 0xF x 0x18) = some (.setSound x) ∧
    ∀ s : State,
      (∃ t, exec (.setDelay x) s = .next t ∧ t.dt = s.readV x ∧ t.st = s.st ∧ t.pc = s.pc + 2 ∧
        SameRegisters s t ∧ t.index = s.index ∧ SameStack s t ∧ SameMemory s t ∧ SameDisplay s t ∧ SameRandom s t ∧
        SameSession s t) ∧
      (∃ t, exec (.setSound x) s = .next t ∧ t.st = s.readV x ∧ t.dt = s.dt ∧ t.pc = s.pc + 2 ∧
        SameRegisters s t ∧ t.index = s.index ∧ SameStack s t ∧ SameMemory s t ∧ SameDisplay s t ∧ SameRandom s t ∧
        SameSession s t)

/-- A tick takes one from each nonzero timer, leaves a zero timer at zero, and changes nothing else
(`60_exceptions.md` R167). That both tick in one action is the spec's decision D17: log entry 15. -/
def Obligations.TickCountsBothTimersDown : Prop :=
  ∀ s : State, s.Live → ∃ t, transition .tick s = .next t ∧
    t.dt.toNat = s.dt.toNat - 1 ∧ t.st.toNat = s.st.toNat - 1 ∧ SameButTimers s t

/-- After `k` ticks with no write between, a timer that held `v` holds `max (v - k) 0` (`60_exceptions.md` R168): `k`
ticks in a row always complete and change nothing else, and in any run, whatever steps stand between the ticks, each timer
has gone down by the number of ticks if no step executes the instruction that writes it. That one tick counts both timers
is the spec's decision D17: log entry 15 (DESIGN CHOICE). Which words write a timer rests on D1 to D3: log entries 1, 2. -/
def Obligations.TicksSaturateAtZero : Prop :=
  (∀ (s : State) (k : Nat), s.Live → ∃ t, runSchedule (List.replicate k .tick) s = .next t ∧
    t.dt.toNat = s.dt.toNat - k ∧ t.st.toNat = s.st.toNat - k ∧ SameButTimers s t) ∧
  (∀ (l : List Transition) (s t : State), runSchedule l s = .next t →
    (StepsAvoid (fun i => ∃ x, i = .setDelay x) l s → t.dt.toNat = s.dt.toNat - l.count .tick) ∧
    (StepsAvoid (fun i => ∃ x, i = .setSound x) l s → t.st.toNat = s.st.toNat - l.count .tick))

/-- Only set-index and add-to-index change `I`, only set-delay-timer changes `DT` and only set-sound-timer changes
`ST` in a step: no instruction ticks a timer (`10_state.md` R32, R34, R35, `60_exceptions.md` R170). -/
def Obligations.ControlRegistersChangeOnlyByTheirInstructions : Prop :=
  ∀ (i : Instr) (s t : State), exec i s = .next t →
    (t.index ≠ s.index → (∃ nnn, i = .setIndex nnn) ∨ ∃ x, i = .addIndex x) ∧
    (t.dt ≠ s.dt → ∃ x, i = .setDelay x) ∧ (t.st ≠ s.st → ∃ x, i = .setSound x)

/-- The registers, the program counter, the index register, the stack, memory, the run status and the Display calls
are the same under every schedule with the same number of steps; only the timers differ, and what they hold never
matters (`60_exceptions.md` R171). -/
def Obligations.ScheduleAffectsOnlyTheTimers : Prop :=
  ∀ (l₁ l₂ : List Transition) (s₁ s₂ t₁ t₂ : State), engineSteps l₁ = engineSteps l₂ → SameButTimers s₁ s₂ →
    runSchedule l₁ s₁ = .next t₁ → runSchedule l₂ s₂ = .next t₂ → SameButTimers t₁ t₂

/-- The machine's `step` makes exactly the transitions of its schedule, in its order: every state has an infinite schedule
before it, and a run of `n` transitions executes its first `n`; every finite schedule, and every beginning of every
infinite one, is the run of some schedule input (`60_exceptions.md` R169, R170; the input's form is the model's choice, log
entry 6). -/
def Obligations.StepFollowsEverySchedule : Prop :=
  (∀ (n : Nat) (s : State), Host.Core.run Sys2Proof.core n s =
    runFirst s.scheduled n { s with schedule := s.schedule.drop n, moves := s.moves + n }) ∧
  (∀ (l : List Transition) (s : State), Host.Core.run Sys2Proof.core l.length ({ s with schedule := l } : State) =
    runSchedule l { s with schedule := [], moves := s.moves + l.length }) ∧
  (∀ (σ : Nat → Transition) (n : Nat) (s : State),
    Host.Core.run Sys2Proof.core n ({ s with schedule := firstTransitions σ n } : State) =
      runFirst σ n { s with schedule := [], moves := s.moves + n })

/-- Under every infinite schedule a session either runs on for ever or ends in one error after finitely many transitions,
and then nothing follows (`60_exceptions.md` R169, `70_reset_and_hazards.md` R210, `10_state.md` R40; that the end shows as
the fault `sessionOver` is the model's choice, log entry 9). -/
def Obligations.EveryInfiniteScheduleRunsOrEndsInAnError : Prop :=
  ∀ (σ : Nat → Transition) (s : State), s.Live →
    (∀ n : Nat, ∃ t, runFirst σ n s = .next t ∧ t.Live) ∨
    ∃ (n : Nat) (t : State) (e : ErrorKind), runFirst σ n s = .next t ∧ t.status = .faulted e ∧
      (∀ m : Nat, m < n → ∃ u, runFirst σ m s = .next u ∧ u.Live) ∧
      (∀ m : Nat, n < m → runFirst σ m s = .fault (.sessionOver e))

/-- Liveness takes fairness as its premise: once a program has finished, every weakly fair infinite schedule counts both
timers down to zero for good and changes nothing else, and the schedule of steps alone, which is legal and not fair,
never changes them (`70_reset_and_hazards.md` R209, R210, `60_exceptions.md` R168, R170; the fairness premise is asked by
the spec's decision D16, the end of a run is its convention D22). That a word is a jump rests on D1, D2: log entry 1. -/
def Obligations.FairScheduleRunsTheTimersOut : Prop :=
  (∀ (σ : Nat → Transition) (s : State), s.Finished → s.Live → WeaklyFair σ s →
    ∃ n : Nat, ∀ m : Nat, n ≤ m → ∃ t, runFirst σ m s = .next t ∧ t.dt = 0 ∧ t.st = 0 ∧ SameButTimers s t) ∧
  (∀ (s : State) (m : Nat), s.Finished → s.Live → runFirst (fun _ => .step) m s = .next s)

/-! ### The call stack and memory as a whole -/

/-- `Push` (`10_state.md` R38): at capacity it fails with StackOverflow, otherwise it stores the address at the pointer and
increments the pointer. -/
def Obligations.PushStoresAndIncrements : Prop :=
  ∀ (a : Word) (s : State),
    (s.sp.val = 16 → push a s = .error .stackOverflow) ∧
    (s.sp.val < 16 → ∃ t, push a s = .ok t ∧ t.sp.val = s.sp.val + 1 ∧
      (∀ k : Fin 16, t.stack[k] = if k.val = s.sp.val then a else s.stack[k]) ∧
      t = { s with sp := t.sp, stack := t.stack })

/-- The stack's errors (`60_exceptions.md` R152, R153): from an empty stack sixteen nested calls complete and the 17th
raises StackOverflow; a call at capacity raises it, and a return with an empty stack raises StackUnderflow. -/
def Obligations.SeventeenthNestedCallOverflows : Prop :=
  (∀ (targets : List Addr) (nnn : Addr) (s : State), s.sp.val = 0 → targets.length = 16 →
    ∃ t, nestCalls targets s = .next t ∧ t.sp.val = 16 ∧ t.status = s.status ∧
      exec (.call nnn) t = .next { t with status := .faulted .stackOverflow }) ∧
  (∀ (nnn : Addr) (s : State), s.sp.val = 16 →
    exec (.call nnn) s = .next { s with status := .faulted .stackOverflow }) ∧
  (∀ s : State, s.sp.val = 0 → exec .ret s = .next { s with status := .faulted .stackUnderflow })

/-- Only call and return reach the call stack; a call changes the entry at `SP` alone and a return changes no entry
(`10_state.md` R37, `40_control_flow.md` R94). That a return leaves the popped entry as it was is the spec's decision D8
(`10_state.md` R39), log entry 18 (DESIGN CHOICE, unsafe for stale entries). -/
def Obligations.OnlyCallAndReturnReachTheStack : Prop :=
  ∀ (i : Instr) (s t : State), exec i s = .next t →
    ((∀ nnn, i ≠ .call nnn) → i ≠ .ret → SameStack s t) ∧ (i = .ret → t.stack = s.stack) ∧
    (∀ k : Fin 16, k.val ≠ s.sp.val → t.stack[k] = s.stack[k])

/-- No instruction writes memory, and neither does a step or a tick of any kind (`20_memory.md` R65): after the load
every read of an address gives the same byte for the whole session (R62). -/
def Obligations.MemoryIsConstantDuringASession : Prop :=
  (∀ (i : Instr) (s t : State), exec i s = .next t → t.mem = s.mem) ∧
  (∀ (l : List Transition) (s t : State), runSchedule l s = .next t → SameMemory s t)

/-! ### The Display -/

/-- clear-screen (`44_display_ops.md` R130). Whether the call fails is the Display's (log entry 5). That a failing call is
recorded too, `t.calls = s.calls ++ [.clear]` in the last clause, is the model's choice, log entry 7 (DESIGN CHOICE). The
encoding clause rests on D1: log entry 1. -/
def Obligations.ClearScreenCallsTheDisplay : Prop :=
  decodeWord 0x00E0 = some .clearScreen ∧
  (∀ (s : State) (c : Bool), s.nextAnswer = .ok c → ∃ t, exec .clearScreen s = .next t ∧ t.pc = s.pc + 2 ∧
    t.calls = s.calls ++ [.clear] ∧ SameRegisters s t ∧ t.index = s.index ∧ SameStack s t ∧ SameTimers s t ∧
    SameMemory s t ∧ SameRandom s t ∧ SameSession s t) ∧
  (∀ (s : State) (info : FailureInfo), s.nextAnswer = .fails info → ∃ t, exec .clearScreen s = .next t ∧
    t.status = .faulted (.collaboratorFailure info) ∧ SameCore s t ∧ t.calls = s.calls ++ [.clear])

/-- draw-sprite (`44_display_ops.md` R133): the `n` bytes at `I` and the old values of `V[x]` and `V[y]` go to the
Display and its answer to `V[15]`; past the end of memory it raises MemoryOutOfRange with no call made; a failing call
is passed on and changes nothing. MemoryOutOfRange, the empty sprite drawn for `n = 0` and the reads before the flag write
are the spec's decisions D12, D13, D14: log entry 12 (DESIGN CHOICE). The answer is the Display's (log entry 5). The
encoding clause rests on D1, D2: log entry 1 (PRESUMED). -/
def Obligations.DrawSpriteCallsTheDisplayAndSetsTheFlag : Prop :=
  ∀ x y n : Nibble, decodeWord (assembleXYN 0xD x y n) = some (.drawSprite x y n) ∧
    (∀ (s : State) (c : Bool), s.index.toNat + n.toNat ≤ 0x1000 → s.nextAnswer = .ok c →
      ∃ (t : State) (sprite : List Byte), exec (.drawSprite x y n) s = .next t ∧ sprite.length = n.toNat ∧
        (∀ k : Nat, k < n.toNat → sprite[k]? = some (Memory.read s.mem (s.index.toNat + k))) ∧
        t.calls = s.calls ++ [.draw sprite (s.readV x) (s.readV y)] ∧
        t.readV 15 = (if c then 1 else 0) ∧ t.pc = s.pc + 2 ∧ SameRegistersBut 15 s t ∧ t.index = s.index ∧
        SameStack s t ∧ SameTimers s t ∧ SameMemory s t ∧ SameRandom s t ∧ SameSession s t) ∧
    (∀ s : State, 0x1000 < s.index.toNat + n.toNat →
      exec (.drawSprite x y n) s = .next { s with status := .faulted (.memoryOutOfRange s.index n) }) ∧
    (∀ (s : State) (info : FailureInfo), s.index.toNat + n.toNat ≤ 0x1000 → s.nextAnswer = .fails info →
      ∃ t, exec (.drawSprite x y n) s = .next t ∧ t.status = .faulted (.collaboratorFailure info) ∧ SameCore s t)

/-- A run's Display calls are added in order, one per clear-screen or draw-sprite that reaches the Display and none by
anything else: a run only ever adds calls at the end, and an instruction adds at most the one call it makes
(`60_exceptions.md` R180). That a failing call is recorded too is the model's choice: log entry 7. -/
def Obligations.OnlyDisplayInstructionsCallTheDisplay : Prop :=
  (∀ (i : Instr) (s t : State), exec i s = .next t →
    t.calls = s.calls ∨ (i = .clearScreen ∧ t.calls = s.calls ++ [.clear]) ∨
    ∃ x y n sprite, i = .drawSprite x y n ∧ spriteBytes n s = some sprite ∧
      t.calls = s.calls ++ [.draw sprite (s.readV x) (s.readV y)]) ∧
  (∀ (l : List Transition) (s t : State), runSchedule l s = .next t → ∃ more, t.calls = s.calls ++ more)

/-! ### Reset, load and the host -/

/-- `reset()`, from any state and with any font table, leaves the state of the reset table (`10_state.md` R47,
`70_reset_and_hazards.md` R190). -/
def Obligations.ResetGivesTheResetTable : Prop :=
  ∀ (font : List Byte) (s : State), font.length = 80 →
    (∀ x : Nibble, (hostReset font s).readV x = 0) ∧ (hostReset font s).pc = 0x200 ∧
    (hostReset font s).index = 0 ∧ (hostReset font s).sp.val = 0 ∧
    (∀ k : Fin 16, (hostReset font s).stack[k] = 0) ∧ (hostReset font s).dt = 0 ∧ (hostReset font s).st = 0 ∧
    (∀ a : Nat, a < 0x50 → font[a]? = some (Memory.read (hostReset font s).mem a)) ∧
    (∀ a : Nat, 0x50 ≤ a → a ≤ 0xFFF → Memory.read (hostReset font s).mem a = 0) ∧ (hostReset font s).Running

/-- The machine's reset state is the one `reset()` leaves with the default font table: the font's bytes are the
model's choice of the spec's default (log entry 3), and no input is supplied in it (log entries 4 to 6). -/
def Obligations.ResetStateHasTheDefaultFont : Prop :=
  Config.defaultFont.length = 80 ∧ State.reset = hostReset Config.defaultFont State.reset ∧
  ∀ a : Nat, a < 0x50 → Config.defaultFont[a]? = some (Memory.read State.reset.mem a)

/-- `load_program(bytes)` after a reset (`70_reset_and_hazards.md` R191, R192, `60_exceptions.md` R151): up to 0xE00
bytes are copied verbatim to 0x200 upward and nothing else changes but the load mark; a longer program raises
ProgramTooLarge, nothing is copied and the load mark stays unset. The mark, `loaded := true`, is the model's own field and
no rule's: log entry 8 (DESIGN CHOICE). -/
def Obligations.LoadProgramCopiesTheBytes : Prop :=
  ∀ (font : List Byte) (s : State) (bytes : List Byte), font.length = 80 →
    (bytes.length ≤ 0xE00 → ∃ t, loadProgram bytes (hostReset font s) = .next t ∧
      (∀ k : Nat, k < bytes.length → bytes[k]? = some (Memory.read t.mem (0x200 + k))) ∧
      (∀ a : Nat, a < 0x200 ∨ 0x200 + bytes.length ≤ a →
        Memory.read t.mem a = Memory.read (hostReset font s).mem a) ∧
      t = { hostReset font s with mem := t.mem, loaded := true }) ∧
    (0xE00 < bytes.length → loadProgram bytes (hostReset font s) =
      .next { hostReset font s with status := .faulted .programTooLarge })

/-- After a load, successful or not, the session takes no other, however many steps and ticks have followed it
(`70_reset_and_hazards.md` R194, the spec's decision D28; the load mark is log entry 8). -/
def Obligations.SecondLoadIsRefused : Prop :=
  ∀ (bytes more : List Byte) (l : List Transition) (s t u : State), loadProgram bytes s = .next t →
    runSchedule l t = .next u → loadProgram more u = .refused .loadOutOfOrder

/-- An empty program leaves memory as reset left it and its first step raises UnimplementedOpcode(0x0000, 0x0200)
(`70_reset_and_hazards.md` R193). That the word 0x0000 is Unknown rests on the spec's decisions D1 and D3: log entries 1
(PRESUMED) and 2 (DESIGN CHOICE). -/
def Obligations.EmptyProgramStopsAtItsFirstStep : Prop :=
  ∀ (font : List Byte) (s : State), font.length = 80 → ∃ t, loadProgram [] (hostReset font s) = .next t ∧
    SameMemory (hostReset font s) t ∧
    transition .step t = .next { t with status := .faulted (.unimplementedOpcode 0x0000 0x0200) }

/-- The state after reset meets the invariant, for every font table (`10_state.md` R48). -/
def Obligations.ResetMeetsTheInvariant : Prop :=
  State.reset.Inv ∧ ∀ (font : List Byte) (s : State), font.length = 80 → (hostReset font s).Inv

/-- Every step keeps the invariant: the program counter is at most 0x10FE, every live stack entry is at most 0x1000,
and memory keeps its canonical form (`10_state.md` R48). -/
def Obligations.StepKeepsTheInvariant : Prop :=
  ∀ s t : State, s.Inv → step s = .next t → t.Inv

/-- In every state a session reaches, for every font, program, schedule, Display and random source: `SP` is at most
16, `I` at most 0xFFF, every live stack entry at most 0x1000 and the program counter at most 0x10FE
(`10_state.md` R48). -/
def Obligations.ReachableStatesAreBounded : Prop :=
  ∀ (font bytes : List Byte) (l : List Transition) (s₀ s t : State), font.length = 80 →
    loadProgram bytes (hostReset font s₀) = .next s → runSchedule l s = .next t →
    t.sp.val ≤ 16 ∧ t.index.toNat ≤ 0xFFF ∧ (∀ k : Fin 16, k.val < t.sp.val → t.stack[k].toNat ≤ 0x1000) ∧
    t.pc.toNat ≤ 0x10FE

/-- A finished program stays finished: a step leaves the whole state unchanged and every schedule changes only the
timers (`70_reset_and_hazards.md` R210, a convention: the spec's decision D22). That a word is a jump rests on D1, D2: log
entry 1. -/
def Obligations.FinishedProgramStaysFinished : Prop :=
  ∀ s : State, s.Finished → s.Live →
    transition .step s = .next s ∧
    ∀ l : List Transition, ∃ t, runSchedule l s = .next t ∧ SameButTimers s t ∧ t.Finished

/-- A session's order is kept: `reset()` from any state leaves no step and no tick in order before a load, whatever the
schedule input gives, and a load that succeeds leaves both in order (`70_reset_and_hazards.md` R194, the spec's decision
D28; the load mark and the refusal's name are log entry 8, DESIGN CHOICE). -/
def Obligations.TransitionsWaitForTheLoad : Prop :=
  (∀ (s : State) (tr : Transition), s.Running → s.loaded = false →
    transition tr s = .refused .noProgramLoaded ∧ step s = .refused .noProgramLoaded) ∧
  (∀ (font : List Byte) (s : State) (tr : Transition) (l : List Transition),
    runSchedule (tr :: l) (hostReset font s) = .refused .noProgramLoaded) ∧
  (∀ (font bytes : List Byte) (s : State) (tr : Transition), bytes.length ≤ 0xE00 →
    ∃ t u, loadProgram bytes (hostReset font s) = .next t ∧ transition tr t = .next u)
end

