-- ==== Sys2Proof/Laws/Encoding.lean ====
section
/-! SUPPORT. What each field of an assembled word is (`30_encoding.md` R76, R86), and the bytes of a word. -/

namespace Sys2Proof

variable (c x y n : Nibble) (kk : Byte) (nnn : Addr)

/-- Bit by bit: `nnn` below, the class above. -/
theorem getLsbD_assembleNNN (i : Nat) :
    (assembleNNN c nnn).getLsbD i = if i < 12 then nnn.getLsbD i else c.getLsbD (i - 12) :=
  BitVec.getLsbD_append (x := c) (y := nnn)

/-- Bit by bit: `kk` below, then `x`, then the class. -/
theorem getLsbD_assembleXKK (i : Nat) :
    (assembleXKK c x kk).getLsbD i =
      if i < 8 then kk.getLsbD i else if i - 8 < 4 then x.getLsbD (i - 8) else c.getLsbD (i - 8 - 4) := by
  rw [← BitVec.getLsbD_append (x := c) (y := x), ← BitVec.getLsbD_append (x := c ++ x) (y := kk)]
  rfl

/-- Bit by bit: `n` below, then `y`, `x` and the class. -/
theorem getLsbD_assembleXYN (i : Nat) :
    (assembleXYN c x y n).getLsbD i =
      if i < 4 then n.getLsbD i else if i - 4 < 4 then y.getLsbD (i - 4)
      else if i - 4 - 4 < 4 then x.getLsbD (i - 4 - 4) else c.getLsbD (i - 4 - 4 - 4) := by
  rw [← BitVec.getLsbD_append (x := c) (y := x), ← BitVec.getLsbD_append (x := c ++ x) (y := y),
    ← BitVec.getLsbD_append (x := c ++ x ++ y) (y := n)]
  rfl

theorem fieldClass_assembleNNN : fieldClass (assembleNNN c nnn) = c := by
  ext i hi
  simp [fieldClass, getLsbD_assembleNNN, BitVec.getLsbD_eq_getElem hi]

theorem fieldNNN_assembleNNN : fieldNNN (assembleNNN c nnn) = nnn := by
  ext i hi
  simp [fieldNNN, getLsbD_assembleNNN, hi]

theorem fieldClass_assembleXKK : fieldClass (assembleXKK c x kk) = c := by
  ext i hi
  have h1 : ¬ 12 + i < 8 := by omega
  have h2 : ¬ 12 + i - 8 < 4 := by omega
  have h3 : 12 + i - 8 - 4 = i := by omega
  simp [fieldClass, getLsbD_assembleXKK, h1, h2, h3, BitVec.getLsbD_eq_getElem hi]

theorem fieldX_assembleXKK : fieldX (assembleXKK c x kk) = x := by
  ext i hi
  have h1 : ¬ 8 + i < 8 := by omega
  simp [fieldX, getLsbD_assembleXKK, h1, hi]

theorem fieldKK_assembleXKK : fieldKK (assembleXKK c x kk) = kk := by
  ext i hi
  simp [fieldKK, getLsbD_assembleXKK, hi]

theorem fieldClass_assembleXYN : fieldClass (assembleXYN c x y n) = c := by
  ext i hi
  have h1 : ¬ 12 + i < 4 := by omega
  have h2 : ¬ 12 + i - 4 < 4 := by omega
  have h3 : ¬ 12 + i - 4 - 4 < 4 := by omega
  have h4 : 12 + i - 4 - 4 - 4 = i := by omega
  simp [fieldClass, getLsbD_assembleXYN, h1, h2, h3, h4, BitVec.getLsbD_eq_getElem hi]

theorem fieldX_assembleXYN : fieldX (assembleXYN c x y n) = x := by
  ext i hi
  have h1 : ¬ 8 + i < 4 := by omega
  have h2 : ¬ 8 + i - 4 < 4 := by omega
  have h3 : 8 + i - 4 - 4 = i := by omega
  simp [fieldX, getLsbD_assembleXYN, h1, h2, h3, hi]

theorem fieldY_assembleXYN : fieldY (assembleXYN c x y n) = y := by
  ext i hi
  simp [fieldY, getLsbD_assembleXYN, hi]

theorem fieldN_assembleXYN : fieldN (assembleXYN c x y n) = n := by
  ext i hi
  simp [fieldN, getLsbD_assembleXYN, hi]

/-- A word is its two bytes, high byte first (`20_memory.md` R50). -/
theorem joinBytes_high_low (w : Word) : joinBytes (highByte w) (lowByte w) = w := by
  apply BitVec.eq_of_getLsbD_eq
  intro i hi
  have h := BitVec.getLsbD_append (x := highByte w) (y := lowByte w) (i := i)
  rw [show joinBytes (highByte w) (lowByte w) = highByte w ++ lowByte w from rfl, h]
  by_cases h8 : i < 8
  · simp [lowByte, h8]
  · have h2 : 8 + (i - 8) = i := by omega
    have h3 : i - 8 < 8 := by omega
    simp [highByte, h8, h2, h3]

/-- The high byte of two joined bytes. -/
theorem highByte_joinBytes (hi lo : Byte) : highByte (joinBytes hi lo) = hi := by
  ext i h
  have := BitVec.getLsbD_append (x := hi) (y := lo) (i := 8 + i)
  simp [highByte, show joinBytes hi lo = hi ++ lo from rfl, this, BitVec.getLsbD_eq_getElem h]

/-- The low byte of two joined bytes. -/
theorem lowByte_joinBytes (hi lo : Byte) : lowByte (joinBytes hi lo) = lo := by
  ext i h
  have := BitVec.getLsbD_append (x := hi) (y := lo) (i := i)
  simp [lowByte, show joinBytes hi lo = hi ++ lo from rfl, this, h]

end Sys2Proof
end

