-- ==== Sys2Proof/Laws/Memory.lean ====
section
/-! SUPPORT. The memory laws: a read after a write, and that every memory operation keeps the canonical form. -/

namespace Sys2Proof.Machine

/-- A canonical memory from `lo` up is one from any lower address up. -/
theorem Memory.wfFrom_mono {m : Memory} {lo lo' : Nat} (h : lo' ≤ lo) (hm : Memory.wfFrom lo m = true) :
    Memory.wfFrom lo' m = true := by
  cases m with
  | nil => rfl
  | cons c rest =>
    simp only [Memory.wfFrom, Bool.and_eq_true, decide_eq_true_eq] at hm ⊢
    exact ⟨⟨⟨by omega, hm.1.1.2⟩, hm.1.2⟩, hm.2⟩

/-- An address below a canonical memory is unlisted. -/
theorem Memory.read_below {m : Memory} {lo a : Nat} (hm : Memory.wfFrom lo m = true) (h : a < lo) :
    Memory.read m a = Memory.unlisted a := by
  induction m generalizing lo with
  | nil => rfl
  | cons c rest ih =>
    obtain ⟨b, u⟩ := c
    simp only [Memory.wfFrom, Bool.and_eq_true, decide_eq_true_eq] at hm
    have hb : b ≠ a := by omega
    simp only [Memory.read, hb, if_false]
    exact ih hm.2 (by omega)

theorem Memory.read_cons_same {a lo : Nat} {u : Byte} {rest : Memory} (hm : Memory.wfFrom lo rest = true)
    (h : a < lo) : Memory.read (Memory.cons a u rest) a = u := by
  unfold Memory.cons
  split
  · next hu => rw [Memory.read_below hm h, hu]
  · simp [Memory.read]

theorem Memory.read_cons_ne {a b : Nat} {u : Byte} {rest : Memory} (h : b ≠ a) :
    Memory.read (Memory.cons a u rest) b = Memory.read rest b := by
  unfold Memory.cons
  split
  · rfl
  · simp [Memory.read, h.symm]

/-- A read after a write to the same address gives the byte written. -/
theorem Memory.read_write_same {m : Memory} {lo a : Nat} {u : Byte} (hm : Memory.wfFrom lo m = true) :
    Memory.read (Memory.write m a u) a = u := by
  induction m generalizing lo with
  | nil => exact Memory.read_cons_same (rest := []) (lo := a + 1) rfl (by omega)
  | cons c rest ih =>
    obtain ⟨b, t⟩ := c
    have hm' := hm
    simp only [Memory.wfFrom, Bool.and_eq_true, decide_eq_true_eq] at hm'
    unfold Memory.write
    split
    · next hb =>
      have : b ≠ a := by omega
      simp only [Memory.read, this, if_false]
      exact ih hm'.2
    · split
      · next hb => exact Memory.read_cons_same hm'.2 (by omega)
      · next h1 h2 =>
        refine Memory.read_cons_same (lo := a + 1) ?_ (by omega)
        simp only [Memory.wfFrom, Bool.and_eq_true, decide_eq_true_eq]
        exact ⟨⟨⟨by omega, hm'.1.1.2⟩, hm'.1.2⟩, hm'.2⟩

/-- A write leaves every other address alone. -/
theorem Memory.read_write_ne {m : Memory} {a b : Nat} {u : Byte} (h : b ≠ a) :
    Memory.read (Memory.write m a u) b = Memory.read m b := by
  induction m with
  | nil => exact Memory.read_cons_ne h
  | cons c rest ih =>
    obtain ⟨d, t⟩ := c
    unfold Memory.write
    split
    · simp only [Memory.read, ih]
    · split
      · next hd => rw [Memory.read_cons_ne h]; simp [Memory.read, hd, h.symm]
      · exact Memory.read_cons_ne h

theorem Memory.wfFrom_cons {a lo : Nat} {u : Byte} {rest : Memory} (hrest : Memory.wfFrom (a + 1) rest = true)
    (hlo : lo ≤ a) (ha : a < memSize) : Memory.wfFrom lo (Memory.cons a u rest) = true := by
  unfold Memory.cons
  split
  · exact Memory.wfFrom_mono (by omega) hrest
  · next hu =>
    simp only [Memory.wfFrom, Bool.and_eq_true, decide_eq_true_eq]
    exact ⟨⟨⟨hlo, ha⟩, hu⟩, hrest⟩

theorem Memory.wfFrom_write {m : Memory} {lo a : Nat} {u : Byte} (hm : Memory.wfFrom lo m = true)
    (hlo : lo ≤ a) (ha : a < memSize) : Memory.wfFrom lo (Memory.write m a u) = true := by
  induction m generalizing lo with
  | nil => exact Memory.wfFrom_cons rfl hlo ha
  | cons c rest ih =>
    obtain ⟨b, t⟩ := c
    have hm' := hm
    simp only [Memory.wfFrom, Bool.and_eq_true, decide_eq_true_eq] at hm'
    unfold Memory.write
    split
    · next hb =>
      simp only [Memory.wfFrom, Bool.and_eq_true, decide_eq_true_eq]
      exact ⟨hm'.1, ih hm'.2 (by omega)⟩
    · split
      · next hb => exact Memory.wfFrom_cons (hb ▸ hm'.2) hlo ha
      · next h1 h2 =>
        refine Memory.wfFrom_cons ?_ hlo ha
        simp only [Memory.wfFrom, Bool.and_eq_true, decide_eq_true_eq]
        exact ⟨⟨⟨by omega, hm'.1.1.2⟩, hm'.1.2⟩, hm'.2⟩

/-- A write inside memory keeps the canonical form. -/
theorem Memory.write_wf {m : Memory} {a : Nat} {u : Byte} (hm : Memory.wf m = true) (ha : a < memSize) :
    Memory.wf (Memory.write m a u) = true :=
  Memory.wfFrom_write hm (Nat.zero_le a) ha

/-- A write of a byte sequence inside memory keeps the canonical form. -/
theorem Memory.writeBytes_wf {us : List Byte} {m : Memory} {a : Nat} (hm : Memory.wf m = true)
    (ha : a + us.length ≤ memSize) : Memory.wf (Memory.writeBytes m a us) = true := by
  induction us generalizing m a with
  | nil => exact hm
  | cons u us ih =>
    simp only [List.length_cons] at ha
    exact ih (Memory.write_wf hm (by omega)) (by omega)

/-- A write lists no address but those listed before and its own. -/
theorem Memory.mem_write {m : Memory} {a : Nat} {u : Byte} {c : Host.Cell} (h : c ∈ Memory.write m a u) :
    c ∈ m ∨ c.1 = a := by
  have cons : ∀ rest : Memory, c ∈ Memory.cons a u rest → c ∈ rest ∨ c.1 = a := by
    intro rest hc
    unfold Memory.cons at hc
    split at hc
    · exact .inl hc
    · rcases List.mem_cons.mp hc with rfl | hc
      · exact .inr rfl
      · exact .inl hc
  induction m with
  | nil => exact cons [] h
  | cons d rest ih =>
    unfold Memory.write at h
    split at h
    · rcases List.mem_cons.mp h with rfl | h
      · exact .inl List.mem_cons_self
      · exact (ih h).imp_left (List.mem_cons_of_mem _)
    · split at h
      · exact (cons rest h).imp_left (List.mem_cons_of_mem _)
      · exact cons _ h

/-- A write of a byte sequence lists no address but those listed before and those it is written to. -/
theorem Memory.mem_writeBytes {us : List Byte} {m : Memory} {a : Nat} {c : Host.Cell}
    (h : c ∈ Memory.writeBytes m a us) : c ∈ m ∨ (a ≤ c.1 ∧ c.1 < a + us.length) := by
  induction us generalizing m a with
  | nil => exact .inl h
  | cons u us ih =>
    simp only [List.length_cons]
    rcases ih h with h | h
    · rcases Memory.mem_write h with h | h
      · exact .inl h
      · exact .inr (by omega)
    · exact .inr (by omega)

/-- A byte outside the addresses a byte sequence is written to reads as before. -/
theorem Memory.read_writeBytes_outside {us : List Byte} {m : Memory} {a b : Nat}
    (h : b < a ∨ a + us.length ≤ b) : Memory.read (Memory.writeBytes m a us) b = Memory.read m b := by
  induction us generalizing m a with
  | nil => rfl
  | cons u us ih =>
    simp only [List.length_cons] at h
    rw [Memory.writeBytes, ih (by omega), Memory.read_write_ne (by omega)]

/-- Each byte of a sequence that is written reads back. -/
theorem Memory.read_writeBytes_inside {us : List Byte} {m : Memory} {a k : Nat} (hm : Memory.wf m = true)
    (ha : a + us.length ≤ memSize) (hk : k < us.length) :
    Memory.read (Memory.writeBytes m a us) (a + k) = us[k] := by
  induction us generalizing m a k with
  | nil => simp at hk
  | cons u us ih =>
    simp only [List.length_cons] at ha hk
    cases k with
    | zero =>
      rw [Memory.writeBytes, Memory.read_writeBytes_outside (by omega)]
      exact Memory.read_write_same hm
    | succ k =>
      have := ih (Memory.write_wf (u := u) hm (by omega : a < memSize)) (a := a + 1) (by omega) (k := k) (by omega)
      rw [Memory.writeBytes, ← Nat.add_assoc, Nat.add_right_comm, this]
      rfl

/-- `MemRead` answers exactly where the whole range lies in memory, with the bytes in ascending order. -/
theorem Memory.range_eq_some {m : Memory} {a n : Nat} (h : a + n ≤ memSize) :
    Memory.range m a n = some ((List.range n).map fun k => Memory.read m (a + k)) := by
  simp [Memory.range, Nat.not_lt.mpr h]

theorem Memory.range_eq_none {m : Memory} {a n : Nat} (h : memSize < a + n) : Memory.range m a n = none := by
  simp [Memory.range, h]

end Sys2Proof.Machine
end

