-- ==== Sys2Proof/Laws/State.lean ====
section
/-! SUPPORT. What each update of a state does to each field, and how registers read after it. -/

namespace Sys2Proof.Machine

variable (s : State)

/-! ### One lemma per field per update -/

@[simp] theorem State.writeV_v (x : Nibble) (b : Byte) : (s.writeV x b).v = s.v.set x.toNat b x.isLt := rfl
@[simp] theorem State.writeV_pc (x : Nibble) (b : Byte) : (s.writeV x b).pc = s.pc := rfl
@[simp] theorem State.writeV_index (x : Nibble) (b : Byte) : (s.writeV x b).index = s.index := rfl
@[simp] theorem State.writeV_sp (x : Nibble) (b : Byte) : (s.writeV x b).sp = s.sp := rfl
@[simp] theorem State.writeV_stack (x : Nibble) (b : Byte) : (s.writeV x b).stack = s.stack := rfl
@[simp] theorem State.writeV_dt (x : Nibble) (b : Byte) : (s.writeV x b).dt = s.dt := rfl
@[simp] theorem State.writeV_st (x : Nibble) (b : Byte) : (s.writeV x b).st = s.st := rfl
@[simp] theorem State.writeV_mem (x : Nibble) (b : Byte) : (s.writeV x b).mem = s.mem := rfl
@[simp] theorem State.writeV_status (x : Nibble) (b : Byte) : (s.writeV x b).status = s.status := rfl
@[simp] theorem State.writeV_schedule (x : Nibble) (b : Byte) : (s.writeV x b).schedule = s.schedule := rfl
@[simp] theorem State.writeV_moves (x : Nibble) (b : Byte) : (s.writeV x b).moves = s.moves := rfl
@[simp] theorem State.writeV_displayInput (x : Nibble) (b : Byte) : (s.writeV x b).displayInput = s.displayInput := rfl
@[simp] theorem State.writeV_answers (x : Nibble) (b : Byte) : (s.writeV x b).answers = s.answers := rfl
@[simp] theorem State.writeV_randomInput (x : Nibble) (b : Byte) : (s.writeV x b).randomInput = s.randomInput := rfl
@[simp] theorem State.writeV_draws (x : Nibble) (b : Byte) : (s.writeV x b).draws = s.draws := rfl
@[simp] theorem State.writeV_calls (x : Nibble) (b : Byte) : (s.writeV x b).calls = s.calls := rfl
@[simp] theorem State.writeV_loaded (x : Nibble) (b : Byte) : (s.writeV x b).loaded = s.loaded := rfl

@[simp] theorem State.setPc_v (a : Word) : (s.setPc a).v = s.v := rfl
@[simp] theorem State.setPc_pc (a : Word) : (s.setPc a).pc = a := rfl
@[simp] theorem State.setPc_index (a : Word) : (s.setPc a).index = s.index := rfl
@[simp] theorem State.setPc_sp (a : Word) : (s.setPc a).sp = s.sp := rfl
@[simp] theorem State.setPc_stack (a : Word) : (s.setPc a).stack = s.stack := rfl
@[simp] theorem State.setPc_dt (a : Word) : (s.setPc a).dt = s.dt := rfl
@[simp] theorem State.setPc_st (a : Word) : (s.setPc a).st = s.st := rfl
@[simp] theorem State.setPc_mem (a : Word) : (s.setPc a).mem = s.mem := rfl
@[simp] theorem State.setPc_status (a : Word) : (s.setPc a).status = s.status := rfl
@[simp] theorem State.setPc_schedule (a : Word) : (s.setPc a).schedule = s.schedule := rfl
@[simp] theorem State.setPc_moves (a : Word) : (s.setPc a).moves = s.moves := rfl
@[simp] theorem State.setPc_displayInput (a : Word) : (s.setPc a).displayInput = s.displayInput := rfl
@[simp] theorem State.setPc_answers (a : Word) : (s.setPc a).answers = s.answers := rfl
@[simp] theorem State.setPc_randomInput (a : Word) : (s.setPc a).randomInput = s.randomInput := rfl
@[simp] theorem State.setPc_draws (a : Word) : (s.setPc a).draws = s.draws := rfl
@[simp] theorem State.setPc_calls (a : Word) : (s.setPc a).calls = s.calls := rfl
@[simp] theorem State.setPc_loaded (a : Word) : (s.setPc a).loaded = s.loaded := rfl

@[simp] theorem State.advance_v : (s.advance).v = s.v := rfl
@[simp] theorem State.advance_pc : (s.advance).pc = s.pc + 2 := rfl
@[simp] theorem State.advance_index : (s.advance).index = s.index := rfl
@[simp] theorem State.advance_sp : (s.advance).sp = s.sp := rfl
@[simp] theorem State.advance_stack : (s.advance).stack = s.stack := rfl
@[simp] theorem State.advance_dt : (s.advance).dt = s.dt := rfl
@[simp] theorem State.advance_st : (s.advance).st = s.st := rfl
@[simp] theorem State.advance_mem : (s.advance).mem = s.mem := rfl
@[simp] theorem State.advance_status : (s.advance).status = s.status := rfl
@[simp] theorem State.advance_schedule : (s.advance).schedule = s.schedule := rfl
@[simp] theorem State.advance_moves : (s.advance).moves = s.moves := rfl
@[simp] theorem State.advance_displayInput : (s.advance).displayInput = s.displayInput := rfl
@[simp] theorem State.advance_answers : (s.advance).answers = s.answers := rfl
@[simp] theorem State.advance_randomInput : (s.advance).randomInput = s.randomInput := rfl
@[simp] theorem State.advance_draws : (s.advance).draws = s.draws := rfl
@[simp] theorem State.advance_calls : (s.advance).calls = s.calls := rfl
@[simp] theorem State.advance_loaded : (s.advance).loaded = s.loaded := rfl

@[simp] theorem State.skipIf_v (c : Bool) : (s.skipIf c).v = s.v := rfl
@[simp] theorem State.skipIf_pc (c : Bool) : (s.skipIf c).pc = if c then s.pc + 4 else s.pc + 2 := rfl
@[simp] theorem State.skipIf_index (c : Bool) : (s.skipIf c).index = s.index := rfl
@[simp] theorem State.skipIf_sp (c : Bool) : (s.skipIf c).sp = s.sp := rfl
@[simp] theorem State.skipIf_stack (c : Bool) : (s.skipIf c).stack = s.stack := rfl
@[simp] theorem State.skipIf_dt (c : Bool) : (s.skipIf c).dt = s.dt := rfl
@[simp] theorem State.skipIf_st (c : Bool) : (s.skipIf c).st = s.st := rfl
@[simp] theorem State.skipIf_mem (c : Bool) : (s.skipIf c).mem = s.mem := rfl
@[simp] theorem State.skipIf_status (c : Bool) : (s.skipIf c).status = s.status := rfl
@[simp] theorem State.skipIf_schedule (c : Bool) : (s.skipIf c).schedule = s.schedule := rfl
@[simp] theorem State.skipIf_moves (c : Bool) : (s.skipIf c).moves = s.moves := rfl
@[simp] theorem State.skipIf_displayInput (c : Bool) : (s.skipIf c).displayInput = s.displayInput := rfl
@[simp] theorem State.skipIf_answers (c : Bool) : (s.skipIf c).answers = s.answers := rfl
@[simp] theorem State.skipIf_randomInput (c : Bool) : (s.skipIf c).randomInput = s.randomInput := rfl
@[simp] theorem State.skipIf_draws (c : Bool) : (s.skipIf c).draws = s.draws := rfl
@[simp] theorem State.skipIf_calls (c : Bool) : (s.skipIf c).calls = s.calls := rfl
@[simp] theorem State.skipIf_loaded (c : Bool) : (s.skipIf c).loaded = s.loaded := rfl

@[simp] theorem State.setIndex_v (a : Addr) : (s.setIndex a).v = s.v := rfl
@[simp] theorem State.setIndex_pc (a : Addr) : (s.setIndex a).pc = s.pc := rfl
@[simp] theorem State.setIndex_index (a : Addr) : (s.setIndex a).index = a := rfl
@[simp] theorem State.setIndex_sp (a : Addr) : (s.setIndex a).sp = s.sp := rfl
@[simp] theorem State.setIndex_stack (a : Addr) : (s.setIndex a).stack = s.stack := rfl
@[simp] theorem State.setIndex_dt (a : Addr) : (s.setIndex a).dt = s.dt := rfl
@[simp] theorem State.setIndex_st (a : Addr) : (s.setIndex a).st = s.st := rfl
@[simp] theorem State.setIndex_mem (a : Addr) : (s.setIndex a).mem = s.mem := rfl
@[simp] theorem State.setIndex_status (a : Addr) : (s.setIndex a).status = s.status := rfl
@[simp] theorem State.setIndex_schedule (a : Addr) : (s.setIndex a).schedule = s.schedule := rfl
@[simp] theorem State.setIndex_moves (a : Addr) : (s.setIndex a).moves = s.moves := rfl
@[simp] theorem State.setIndex_displayInput (a : Addr) : (s.setIndex a).displayInput = s.displayInput := rfl
@[simp] theorem State.setIndex_answers (a : Addr) : (s.setIndex a).answers = s.answers := rfl
@[simp] theorem State.setIndex_randomInput (a : Addr) : (s.setIndex a).randomInput = s.randomInput := rfl
@[simp] theorem State.setIndex_draws (a : Addr) : (s.setIndex a).draws = s.draws := rfl
@[simp] theorem State.setIndex_calls (a : Addr) : (s.setIndex a).calls = s.calls := rfl
@[simp] theorem State.setIndex_loaded (a : Addr) : (s.setIndex a).loaded = s.loaded := rfl

@[simp] theorem State.setDelay_v (b : Byte) : (s.setDelay b).v = s.v := rfl
@[simp] theorem State.setDelay_pc (b : Byte) : (s.setDelay b).pc = s.pc := rfl
@[simp] theorem State.setDelay_index (b : Byte) : (s.setDelay b).index = s.index := rfl
@[simp] theorem State.setDelay_sp (b : Byte) : (s.setDelay b).sp = s.sp := rfl
@[simp] theorem State.setDelay_stack (b : Byte) : (s.setDelay b).stack = s.stack := rfl
@[simp] theorem State.setDelay_dt (b : Byte) : (s.setDelay b).dt = b := rfl
@[simp] theorem State.setDelay_st (b : Byte) : (s.setDelay b).st = s.st := rfl
@[simp] theorem State.setDelay_mem (b : Byte) : (s.setDelay b).mem = s.mem := rfl
@[simp] theorem State.setDelay_status (b : Byte) : (s.setDelay b).status = s.status := rfl
@[simp] theorem State.setDelay_schedule (b : Byte) : (s.setDelay b).schedule = s.schedule := rfl
@[simp] theorem State.setDelay_moves (b : Byte) : (s.setDelay b).moves = s.moves := rfl
@[simp] theorem State.setDelay_displayInput (b : Byte) : (s.setDelay b).displayInput = s.displayInput := rfl
@[simp] theorem State.setDelay_answers (b : Byte) : (s.setDelay b).answers = s.answers := rfl
@[simp] theorem State.setDelay_randomInput (b : Byte) : (s.setDelay b).randomInput = s.randomInput := rfl
@[simp] theorem State.setDelay_draws (b : Byte) : (s.setDelay b).draws = s.draws := rfl
@[simp] theorem State.setDelay_calls (b : Byte) : (s.setDelay b).calls = s.calls := rfl
@[simp] theorem State.setDelay_loaded (b : Byte) : (s.setDelay b).loaded = s.loaded := rfl

@[simp] theorem State.setSound_v (b : Byte) : (s.setSound b).v = s.v := rfl
@[simp] theorem State.setSound_pc (b : Byte) : (s.setSound b).pc = s.pc := rfl
@[simp] theorem State.setSound_index (b : Byte) : (s.setSound b).index = s.index := rfl
@[simp] theorem State.setSound_sp (b : Byte) : (s.setSound b).sp = s.sp := rfl
@[simp] theorem State.setSound_stack (b : Byte) : (s.setSound b).stack = s.stack := rfl
@[simp] theorem State.setSound_dt (b : Byte) : (s.setSound b).dt = s.dt := rfl
@[simp] theorem State.setSound_st (b : Byte) : (s.setSound b).st = b := rfl
@[simp] theorem State.setSound_mem (b : Byte) : (s.setSound b).mem = s.mem := rfl
@[simp] theorem State.setSound_status (b : Byte) : (s.setSound b).status = s.status := rfl
@[simp] theorem State.setSound_schedule (b : Byte) : (s.setSound b).schedule = s.schedule := rfl
@[simp] theorem State.setSound_moves (b : Byte) : (s.setSound b).moves = s.moves := rfl
@[simp] theorem State.setSound_displayInput (b : Byte) : (s.setSound b).displayInput = s.displayInput := rfl
@[simp] theorem State.setSound_answers (b : Byte) : (s.setSound b).answers = s.answers := rfl
@[simp] theorem State.setSound_randomInput (b : Byte) : (s.setSound b).randomInput = s.randomInput := rfl
@[simp] theorem State.setSound_draws (b : Byte) : (s.setSound b).draws = s.draws := rfl
@[simp] theorem State.setSound_calls (b : Byte) : (s.setSound b).calls = s.calls := rfl
@[simp] theorem State.setSound_loaded (b : Byte) : (s.setSound b).loaded = s.loaded := rfl

@[simp] theorem State.setFlag_v (c : Bool) : (s.setFlag c).v = s.v.set flagRegister.toNat (flagByte c) flagRegister.isLt := rfl
@[simp] theorem State.setFlag_pc (c : Bool) : (s.setFlag c).pc = s.pc := rfl
@[simp] theorem State.setFlag_index (c : Bool) : (s.setFlag c).index = s.index := rfl
@[simp] theorem State.setFlag_sp (c : Bool) : (s.setFlag c).sp = s.sp := rfl
@[simp] theorem State.setFlag_stack (c : Bool) : (s.setFlag c).stack = s.stack := rfl
@[simp] theorem State.setFlag_dt (c : Bool) : (s.setFlag c).dt = s.dt := rfl
@[simp] theorem State.setFlag_st (c : Bool) : (s.setFlag c).st = s.st := rfl
@[simp] theorem State.setFlag_mem (c : Bool) : (s.setFlag c).mem = s.mem := rfl
@[simp] theorem State.setFlag_status (c : Bool) : (s.setFlag c).status = s.status := rfl
@[simp] theorem State.setFlag_schedule (c : Bool) : (s.setFlag c).schedule = s.schedule := rfl
@[simp] theorem State.setFlag_moves (c : Bool) : (s.setFlag c).moves = s.moves := rfl
@[simp] theorem State.setFlag_displayInput (c : Bool) : (s.setFlag c).displayInput = s.displayInput := rfl
@[simp] theorem State.setFlag_answers (c : Bool) : (s.setFlag c).answers = s.answers := rfl
@[simp] theorem State.setFlag_randomInput (c : Bool) : (s.setFlag c).randomInput = s.randomInput := rfl
@[simp] theorem State.setFlag_draws (c : Bool) : (s.setFlag c).draws = s.draws := rfl
@[simp] theorem State.setFlag_calls (c : Bool) : (s.setFlag c).calls = s.calls := rfl
@[simp] theorem State.setFlag_loaded (c : Bool) : (s.setFlag c).loaded = s.loaded := rfl

@[simp] theorem State.drawRandom_v : (s.drawRandom).v = s.v := rfl
@[simp] theorem State.drawRandom_pc : (s.drawRandom).pc = s.pc := rfl
@[simp] theorem State.drawRandom_index : (s.drawRandom).index = s.index := rfl
@[simp] theorem State.drawRandom_sp : (s.drawRandom).sp = s.sp := rfl
@[simp] theorem State.drawRandom_stack : (s.drawRandom).stack = s.stack := rfl
@[simp] theorem State.drawRandom_dt : (s.drawRandom).dt = s.dt := rfl
@[simp] theorem State.drawRandom_st : (s.drawRandom).st = s.st := rfl
@[simp] theorem State.drawRandom_mem : (s.drawRandom).mem = s.mem := rfl
@[simp] theorem State.drawRandom_status : (s.drawRandom).status = s.status := rfl
@[simp] theorem State.drawRandom_schedule : (s.drawRandom).schedule = s.schedule := rfl
@[simp] theorem State.drawRandom_moves : (s.drawRandom).moves = s.moves := rfl
@[simp] theorem State.drawRandom_displayInput : (s.drawRandom).displayInput = s.displayInput := rfl
@[simp] theorem State.drawRandom_answers : (s.drawRandom).answers = s.answers := rfl
@[simp] theorem State.drawRandom_randomInput : (s.drawRandom).randomInput = s.randomInput.tail := rfl
@[simp] theorem State.drawRandom_draws : (s.drawRandom).draws = s.draws + 1 := rfl
@[simp] theorem State.drawRandom_calls : (s.drawRandom).calls = s.calls := rfl
@[simp] theorem State.drawRandom_loaded : (s.drawRandom).loaded = s.loaded := rfl

@[simp] theorem State.recordCall_v (c : DisplayCall) : (s.recordCall c).v = s.v := rfl
@[simp] theorem State.recordCall_pc (c : DisplayCall) : (s.recordCall c).pc = s.pc := rfl
@[simp] theorem State.recordCall_index (c : DisplayCall) : (s.recordCall c).index = s.index := rfl
@[simp] theorem State.recordCall_sp (c : DisplayCall) : (s.recordCall c).sp = s.sp := rfl
@[simp] theorem State.recordCall_stack (c : DisplayCall) : (s.recordCall c).stack = s.stack := rfl
@[simp] theorem State.recordCall_dt (c : DisplayCall) : (s.recordCall c).dt = s.dt := rfl
@[simp] theorem State.recordCall_st (c : DisplayCall) : (s.recordCall c).st = s.st := rfl
@[simp] theorem State.recordCall_mem (c : DisplayCall) : (s.recordCall c).mem = s.mem := rfl
@[simp] theorem State.recordCall_status (c : DisplayCall) : (s.recordCall c).status = s.status := rfl
@[simp] theorem State.recordCall_schedule (c : DisplayCall) : (s.recordCall c).schedule = s.schedule := rfl
@[simp] theorem State.recordCall_moves (c : DisplayCall) : (s.recordCall c).moves = s.moves := rfl
@[simp] theorem State.recordCall_displayInput (c : DisplayCall) : (s.recordCall c).displayInput = s.displayInput.tail := rfl
@[simp] theorem State.recordCall_answers (c : DisplayCall) : (s.recordCall c).answers = s.answers + 1 := rfl
@[simp] theorem State.recordCall_randomInput (c : DisplayCall) : (s.recordCall c).randomInput = s.randomInput := rfl
@[simp] theorem State.recordCall_draws (c : DisplayCall) : (s.recordCall c).draws = s.draws := rfl
@[simp] theorem State.recordCall_calls (c : DisplayCall) : (s.recordCall c).calls = s.calls ++ [c] := rfl
@[simp] theorem State.recordCall_loaded (c : DisplayCall) : (s.recordCall c).loaded = s.loaded := rfl

@[simp] theorem State.setFaulted_v (e : ErrorKind) : (s.setFaulted e).v = s.v := rfl
@[simp] theorem State.setFaulted_pc (e : ErrorKind) : (s.setFaulted e).pc = s.pc := rfl
@[simp] theorem State.setFaulted_index (e : ErrorKind) : (s.setFaulted e).index = s.index := rfl
@[simp] theorem State.setFaulted_sp (e : ErrorKind) : (s.setFaulted e).sp = s.sp := rfl
@[simp] theorem State.setFaulted_stack (e : ErrorKind) : (s.setFaulted e).stack = s.stack := rfl
@[simp] theorem State.setFaulted_dt (e : ErrorKind) : (s.setFaulted e).dt = s.dt := rfl
@[simp] theorem State.setFaulted_st (e : ErrorKind) : (s.setFaulted e).st = s.st := rfl
@[simp] theorem State.setFaulted_mem (e : ErrorKind) : (s.setFaulted e).mem = s.mem := rfl
@[simp] theorem State.setFaulted_status (e : ErrorKind) : (s.setFaulted e).status = .faulted e := rfl
@[simp] theorem State.setFaulted_schedule (e : ErrorKind) : (s.setFaulted e).schedule = s.schedule := rfl
@[simp] theorem State.setFaulted_moves (e : ErrorKind) : (s.setFaulted e).moves = s.moves := rfl
@[simp] theorem State.setFaulted_displayInput (e : ErrorKind) : (s.setFaulted e).displayInput = s.displayInput := rfl
@[simp] theorem State.setFaulted_answers (e : ErrorKind) : (s.setFaulted e).answers = s.answers := rfl
@[simp] theorem State.setFaulted_randomInput (e : ErrorKind) : (s.setFaulted e).randomInput = s.randomInput := rfl
@[simp] theorem State.setFaulted_draws (e : ErrorKind) : (s.setFaulted e).draws = s.draws := rfl
@[simp] theorem State.setFaulted_calls (e : ErrorKind) : (s.setFaulted e).calls = s.calls := rfl
@[simp] theorem State.setFaulted_loaded (e : ErrorKind) : (s.setFaulted e).loaded = s.loaded := rfl

@[simp] theorem State.takeTransition_v : (s.takeTransition).v = s.v := rfl
@[simp] theorem State.takeTransition_pc : (s.takeTransition).pc = s.pc := rfl
@[simp] theorem State.takeTransition_index : (s.takeTransition).index = s.index := rfl
@[simp] theorem State.takeTransition_sp : (s.takeTransition).sp = s.sp := rfl
@[simp] theorem State.takeTransition_stack : (s.takeTransition).stack = s.stack := rfl
@[simp] theorem State.takeTransition_dt : (s.takeTransition).dt = s.dt := rfl
@[simp] theorem State.takeTransition_st : (s.takeTransition).st = s.st := rfl
@[simp] theorem State.takeTransition_mem : (s.takeTransition).mem = s.mem := rfl
@[simp] theorem State.takeTransition_status : (s.takeTransition).status = s.status := rfl
@[simp] theorem State.takeTransition_schedule : (s.takeTransition).schedule = s.schedule.tail := rfl
@[simp] theorem State.takeTransition_moves : (s.takeTransition).moves = s.moves + 1 := rfl
@[simp] theorem State.takeTransition_displayInput : (s.takeTransition).displayInput = s.displayInput := rfl
@[simp] theorem State.takeTransition_answers : (s.takeTransition).answers = s.answers := rfl
@[simp] theorem State.takeTransition_randomInput : (s.takeTransition).randomInput = s.randomInput := rfl
@[simp] theorem State.takeTransition_draws : (s.takeTransition).draws = s.draws := rfl
@[simp] theorem State.takeTransition_calls : (s.takeTransition).calls = s.calls := rfl
@[simp] theorem State.takeTransition_loaded : (s.takeTransition).loaded = s.loaded := rfl

@[simp] theorem tick_v : (tick s).v = s.v := rfl
@[simp] theorem tick_pc : (tick s).pc = s.pc := rfl
@[simp] theorem tick_index : (tick s).index = s.index := rfl
@[simp] theorem tick_sp : (tick s).sp = s.sp := rfl
@[simp] theorem tick_stack : (tick s).stack = s.stack := rfl
@[simp] theorem tick_dt : (tick s).dt = countDown s.dt := rfl
@[simp] theorem tick_st : (tick s).st = countDown s.st := rfl
@[simp] theorem tick_mem : (tick s).mem = s.mem := rfl
@[simp] theorem tick_status : (tick s).status = s.status := rfl
@[simp] theorem tick_schedule : (tick s).schedule = s.schedule := rfl
@[simp] theorem tick_moves : (tick s).moves = s.moves := rfl
@[simp] theorem tick_displayInput : (tick s).displayInput = s.displayInput := rfl
@[simp] theorem tick_answers : (tick s).answers = s.answers := rfl
@[simp] theorem tick_randomInput : (tick s).randomInput = s.randomInput := rfl
@[simp] theorem tick_draws : (tick s).draws = s.draws := rfl
@[simp] theorem tick_calls : (tick s).calls = s.calls := rfl
@[simp] theorem tick_loaded : (tick s).loaded = s.loaded := rfl

/-! ### Reading a register after an update -/

theorem State.readV_eq (x : Nibble) : s.readV x = s.v[x.toNat]'(x.isLt) := rfl

@[simp] theorem State.readV_writeV_same (x : Nibble) (b : Byte) : (s.writeV x b).readV x = b := by
  simp [State.readV]

theorem State.readV_writeV_ne (x y : Nibble) (b : Byte) (h : y ≠ x) : (s.writeV x b).readV y = s.readV y := by
  have hxy : x.toNat ≠ y.toNat := fun e => h (BitVec.eq_of_toNat_eq e.symm)
  simp [State.readV, hxy]

theorem State.readV_writeV (x y : Nibble) (b : Byte) :
    (s.writeV x b).readV y = if y = x then b else s.readV y := by
  by_cases h : y = x
  · subst h
    simp
  · simp [h, State.readV_writeV_ne]

@[simp] theorem State.setPc_readV (a : Word) (y : Nibble) : (s.setPc a).readV y = s.readV y := rfl
@[simp] theorem State.advance_readV (y : Nibble) : (s.advance).readV y = s.readV y := rfl
@[simp] theorem State.skipIf_readV (c : Bool) (y : Nibble) : (s.skipIf c).readV y = s.readV y := rfl
@[simp] theorem State.setIndex_readV (a : Addr) (y : Nibble) : (s.setIndex a).readV y = s.readV y := rfl
@[simp] theorem State.setDelay_readV (b : Byte) (y : Nibble) : (s.setDelay b).readV y = s.readV y := rfl
@[simp] theorem State.setSound_readV (b : Byte) (y : Nibble) : (s.setSound b).readV y = s.readV y := rfl
@[simp] theorem State.drawRandom_readV (y : Nibble) : (s.drawRandom).readV y = s.readV y := rfl
@[simp] theorem State.recordCall_readV (c : DisplayCall) (y : Nibble) : (s.recordCall c).readV y = s.readV y := rfl
@[simp] theorem State.setFaulted_readV (e : ErrorKind) (y : Nibble) : (s.setFaulted e).readV y = s.readV y := rfl
@[simp] theorem State.takeTransition_readV (y : Nibble) : (s.takeTransition).readV y = s.readV y := rfl
@[simp] theorem tick_readV (y : Nibble) : (tick s).readV y = s.readV y := rfl

@[simp] theorem State.setFlag_readV_flag (c : Bool) : (s.setFlag c).readV flagRegister = flagByte c :=
  State.readV_writeV_same _ _ _

theorem State.setFlag_readV_ne (c : Bool) (y : Nibble) (h : y ≠ flagRegister) :
    (s.setFlag c).readV y = s.readV y :=
  State.readV_writeV_ne _ _ _ _ h

/-- States whose registers read the same have the same register file. -/
theorem State.v_eq_of_readV_eq (s t : State) (h : ∀ x : Nibble, s.readV x = t.readV x) : s.v = t.v := by
  apply Vector.ext
  intro k hk
  have := h (BitVec.ofNat 4 k)
  simpa [State.readV, Nat.mod_eq_of_lt hk] using this

end Sys2Proof.Machine
end

