-- ==== Sys2Proof/Laws/Ops.lean ====
section
/-! SUPPORT. One lemma per shared operation that says once everything it can do. -/

namespace Sys2Proof.Machine

/-! ### Errors -/

/-- Taking an error answers one next state, which differs in the run status alone. -/
theorem raise_eq_next {e : ErrorKind} {s t : State} (h : raise e s = .next t) :
    t = { s with status := .faulted e } := by
  cases h
  rfl

/-! ### The call stack -/

theorem push_of_lt {a : Word} {s : State} (h : s.sp.val < 16) :
    push a s = .ok { s with stack := s.stack.set s.sp.val a h, sp := ⟨s.sp.val + 1, Nat.succ_lt_succ h⟩ } := by
  simp [push, h]

theorem push_of_full {a : Word} {s : State} (h : s.sp.val = 16) : push a s = .error .stackOverflow := by
  simp [push, h]

/-- Everything a push can do. -/
theorem push_cases (a : Word) (s : State) :
    (∃ h : s.sp.val < 16, push a s =
      .ok { s with stack := s.stack.set s.sp.val a h, sp := ⟨s.sp.val + 1, Nat.succ_lt_succ h⟩ }) ∨
    (s.sp.val = 16 ∧ push a s = .error .stackOverflow) := by
  by_cases h : s.sp.val < 16
  · exact .inl ⟨h, push_of_lt h⟩
  · have := s.sp.isLt
    exact .inr ⟨by omega, push_of_full (by omega)⟩

theorem pop_of_pos {s : State} (h : 0 < s.sp.val) :
    pop s = .ok (s.stack[s.sp.val - 1]'(by have := s.sp.isLt; omega),
      { s with sp := ⟨s.sp.val - 1, by have := s.sp.isLt; omega⟩ }) := by
  simp [pop, h]

theorem pop_of_empty {s : State} (h : s.sp.val = 0) : pop s = .error .stackUnderflow := by
  simp [pop, h]

/-- Everything a pop can do. -/
theorem pop_cases (s : State) :
    (∃ h : 0 < s.sp.val, pop s = .ok (s.stack[s.sp.val - 1]'(by have := s.sp.isLt; omega),
      { s with sp := ⟨s.sp.val - 1, by have := s.sp.isLt; omega⟩ })) ∨
    (s.sp.val = 0 ∧ pop s = .error .stackUnderflow) := by
  by_cases h : 0 < s.sp.val
  · exact .inl ⟨h, pop_of_pos h⟩
  · exact .inr ⟨by omega, pop_of_empty (by omega)⟩

/-! ### The Display's answer -/

theorem State.nextAnswer_cons {s : State} {a : DisplayAnswer} {l : List DisplayAnswer} (h : s.displayInput = a :: l) :
    s.nextAnswer = a := by
  simp [State.nextAnswer, h]

/-- Where the host has supplied no answer the next one is free. -/
theorem State.nextAnswer_nil {s : State} (h : s.displayInput = []) : s.nextAnswer = freeAnswer s.answers := by
  simp [State.nextAnswer, h]

theorem callDisplay_of_ok {s : State} {collision : Bool} (c : DisplayCall) (done : Bool → State → State)
    (h : s.nextAnswer = .ok collision) : callDisplay c done s = .next (done collision (s.recordCall c)) := by
  simp [callDisplay, h]

theorem callDisplay_of_fails {s : State} {info : FailureInfo} (c : DisplayCall) (done : Bool → State → State)
    (h : s.nextAnswer = .fails info) :
    callDisplay c done s = .next ((s.recordCall c).setFaulted (.collaboratorFailure info)) := by
  simp [callDisplay, h]

/-- Everything a Display call can do. -/
theorem callDisplay_cases (c : DisplayCall) (done : Bool → State → State) (s : State) :
    (∃ collision, s.nextAnswer = .ok collision ∧ callDisplay c done s = .next (done collision (s.recordCall c))) ∨
    (∃ info, s.nextAnswer = .fails info ∧
      callDisplay c done s = .next ((s.recordCall c).setFaulted (.collaboratorFailure info))) := by
  cases h : s.nextAnswer with
  | ok collision => exact .inl ⟨collision, rfl, callDisplay_of_ok c done h⟩
  | fails info => exact .inr ⟨info, rfl, callDisplay_of_fails c done h⟩

/-! ### The schedule -/

theorem State.scheduled_of_lt {s : State} {k : Nat} (h : k < s.schedule.length) : s.scheduled k = s.schedule[k] := by
  simp [State.scheduled, h]

theorem State.scheduled_of_ge {s : State} {k : Nat} (h : s.schedule.length ≤ k) :
    s.scheduled k = freeTransition (s.moves + k) := by
  simp [State.scheduled, h]

/-- Taking the next transition leaves the rest of the schedule. -/
@[simp] theorem State.takeTransition_scheduled (s : State) (k : Nat) :
    s.takeTransition.scheduled k = s.scheduled (k + 1) := by
  simp [State.scheduled, Nat.add_right_comm, Nat.add_assoc]

theorem State.nextTransition_cons {s : State} {t : Transition} {l : List Transition} (h : s.schedule = t :: l) :
    s.nextTransition = t := by
  simp [State.nextTransition, State.scheduled, h]

/-- Where the host has supplied no transition the next one is free. -/
theorem State.nextTransition_nil {s : State} (h : s.schedule = []) : s.nextTransition = freeTransition s.moves :=
  State.scheduled_of_ge (by simp [h])

@[simp] theorem firstTransitions_zero (σ : Nat → Transition) : firstTransitions σ 0 = [] := rfl

@[simp] theorem firstTransitions_succ (σ : Nat → Transition) (n : Nat) :
    firstTransitions σ (n + 1) = firstTransitions σ n ++ [σ n] := by
  simp [firstTransitions, List.range_succ]

/-- An infinite schedule's beginning is its first transition and the beginning of what follows it. -/
theorem firstTransitions_succ' (σ : Nat → Transition) (n : Nat) :
    firstTransitions σ (n + 1) = σ 0 :: firstTransitions (fun k => σ (k + 1)) n := by
  simp [firstTransitions, List.range_succ_eq_map, Function.comp_def]

@[simp] theorem length_firstTransitions (σ : Nat → Transition) (n : Nat) : (firstTransitions σ n).length = n := by
  simp [firstTransitions]

/-! ### Fetch and decode -/

theorem fetchWord_of_le {s : State} (h : s.pc.toNat ≤ 0xFFE) :
    fetchWord s = .ok (Memory.fetch16 s.mem s.pc.toNat) := by
  simp [fetchWord, Nat.not_lt.mpr h]

theorem fetchWord_of_gt {s : State} (h : 0xFFE < s.pc.toNat) : fetchWord s = .error (.fetchOutOfRange s.pc) := by
  simp [fetchWord, h]

/-- Everything the front of a step can do. -/
theorem fetchDecode_cases (s : State) :
    (0xFFE < s.pc.toNat ∧ fetchDecode s = .error (.fetchOutOfRange s.pc)) ∨
    (s.pc.toNat ≤ 0xFFE ∧ decodeWord (Memory.fetch16 s.mem s.pc.toNat) = none ∧
      fetchDecode s = .error (.unimplementedOpcode (Memory.fetch16 s.mem s.pc.toNat) s.pc)) ∨
    (∃ i, s.pc.toNat ≤ 0xFFE ∧ decodeWord (Memory.fetch16 s.mem s.pc.toNat) = some i ∧ fetchDecode s = .ok i) := by
  by_cases h : s.pc.toNat ≤ 0xFFE
  · right
    simp only [fetchDecode, fetchWord_of_le h, decodeFetched]
    cases hd : decodeWord (Memory.fetch16 s.mem s.pc.toNat) with
    | none => exact .inl ⟨h, rfl, rfl⟩
    | some i => exact .inr ⟨i, h, rfl, rfl⟩
  · left
    exact ⟨by omega, by simp only [fetchDecode, fetchWord_of_gt (by omega : 0xFFE < s.pc.toNat)]⟩

/-! ### Transitions -/

theorem transition_of_faulted {s : State} {e : ErrorKind} (t : Transition) (h : s.status = .faulted e) :
    transition t s = .fault (.sessionOver e) := by
  simp [transition, h]

theorem transition_of_unloaded {s : State} (t : Transition) (h : s.status = .running) (hl : s.loaded = false) :
    transition t s = .refused .noProgramLoaded := by
  simp [transition, h, hl]

theorem transition_step {s : State} (h : s.Live) : transition .step s = engineStep s := by
  simp [transition, h.1, h.2]

theorem transition_tick {s : State} (h : s.Live) : transition .tick s = .next (tick s) := by
  simp [transition, h.1, h.2]

/-- A transition answers a next state only in a live state: by an engine step or by a tick. -/
theorem transition_eq_next {t : Transition} {s u : State} (h : transition t s = .next u) :
    s.Live ∧ ((t = .step ∧ engineStep s = .next u) ∨ (t = .tick ∧ u = tick s)) := by
  cases hs : s.status with
  | faulted e =>
    rw [transition_of_faulted t hs] at h
    cases h
  | running =>
    cases hl : s.loaded with
    | false =>
      rw [transition_of_unloaded t hs hl] at h
      cases h
    | true =>
      refine ⟨⟨hs, hl⟩, ?_⟩
      cases t with
      | step => exact .inl ⟨rfl, transition_step ⟨hs, hl⟩ ▸ h⟩
      | tick =>
        rw [transition_tick ⟨hs, hl⟩] at h
        cases h
        exact .inr ⟨rfl, rfl⟩

/-- A schedule runs as its beginning and then the rest. -/
theorem runSchedule_append {l : List Transition} {s t : State} (r : List Transition) (h : runSchedule l s = .next t) :
    runSchedule (l ++ r) s = runSchedule r t := by
  induction l generalizing s with
  | nil =>
    cases h
    rfl
  | cons a l ih =>
    simp only [runSchedule, List.cons_append] at h ⊢
    cases ha : transition a s with
    | next u =>
      rw [ha] at h
      exact ih h
    | fault r => simp [ha] at h
    | refused r => simp [ha] at h

/-- The next transition of an infinite schedule, once its beginning has run. -/
theorem runFirst_succ {σ : Nat → Transition} {n : Nat} {s t : State} (h : runFirst σ n s = .next t) :
    runFirst σ (n + 1) s = transition (σ n) t := by
  rw [runFirst, firstTransitions_succ, runSchedule_append _ h]
  cases ha : transition (σ n) t <;> simp [runSchedule, ha]

/-! ### The host's operations -/

/-- A reset state of a machine with an 80-byte font holds that font and zeros above it. -/
theorem State.resetWith_read {font : List Byte} (hf : font.length = 80) (a : Nat) :
    Memory.read (State.resetWith font).mem a = font[a]?.getD 0 := by
  have ht : font.take 80 = font := by simp [List.take_of_length_le (Nat.le_of_eq hf)]
  by_cases h : a < 80
  · have := Memory.read_writeBytes_inside (us := font) (m := []) (a := 0) (k := a) rfl (by simp [hf, memSize])
      (by omega)
    simp only [State.resetWith, ht]
    simpa [List.getElem?_eq_getElem (show a < font.length by omega)] using this
  · simp only [State.resetWith, ht]
    rw [Memory.read_writeBytes_outside (by omega)]
    rw [List.getElem?_eq_none (by omega : font.length ≤ a)]
    simp [Memory.read, Memory.unlisted, h]

theorem freshlyReset_hostReset (font : List Byte) (s : State) : freshlyReset (hostReset font s) = true := by
  have hm : ∀ c ∈ (hostReset font s).mem, c.1 < 0x50 := by
    intro c hc
    rcases Memory.mem_writeBytes (show c ∈ Memory.writeBytes [] 0 (font.take 80) from hc) with h | h
    · cases h
    · have := List.length_take_le 80 font
      omega
  rw [freshlyReset, Bool.and_eq_true, List.all_eq_true]
  exact ⟨decide_eq_true rfl, fun c hc => decide_eq_true (hm c hc)⟩

/-- No state with a program loaded, and none in which an error was raised, is one `reset()` left. -/
theorem not_freshlyReset {s : State} (h : s.loaded = true ∨ s.status ≠ .running) : freshlyReset s = false := by
  rw [freshlyReset, Bool.and_eq_false_iff]
  refine .inl (decide_eq_false fun e => ?_)
  have hl : s.loaded = false := congrArg State.loaded e
  have hs : s.status = .running := congrArg State.status e
  simp [hl, hs] at h

end Sys2Proof.Machine
end

