-- ==== Sys2Proof/Laws/PerInstr.lean ====
section
/-! SUPPORT. Laws stated of every instruction as syntax: its fields are in range, and its row of the opcode map selects
its word (`30_encoding.md` R76, R78, R86). -/

namespace Sys2Proof

/-- Two words agree when they agree on each of the four nibbles. -/
theorem word_ext_of_fields {v w : Word} (hc : fieldClass v = fieldClass w) (hx : fieldX v = fieldX w)
    (hy : fieldY v = fieldY w) (hn : fieldN v = fieldN w) : v = w := by
  apply BitVec.eq_of_getLsbD_eq
  intro i hi
  have bit : ∀ (s : Nat) (j : Nat), j < 4 → v.extractLsb' s 4 = w.extractLsb' s 4 →
      v.getLsbD (s + j) = w.getLsbD (s + j) := by
    intro s j hj h
    have := congrArg (fun b => b.getLsbD j) h
    simpa [hj] using this
  by_cases h0 : i < 4
  · simpa using bit 0 i h0 hn
  by_cases h1 : i < 8
  · simpa [show 4 + (i - 4) = i by omega] using bit 4 (i - 4) (by omega) hy
  by_cases h2 : i < 12
  · simpa [show 8 + (i - 8) = i by omega] using bit 8 (i - 8) (by omega) hx
  · simpa [show 12 + (i - 12) = i by omega] using bit 12 (i - 12) (by omega) hc

theorem fieldClass_and (v w : Word) : fieldClass (v &&& w) = fieldClass v &&& fieldClass w := by
  ext i hi
  simp [fieldClass]

theorem fieldX_and (v w : Word) : fieldX (v &&& w) = fieldX v &&& fieldX w := by
  ext i hi
  simp [fieldX]

theorem fieldY_and (v w : Word) : fieldY (v &&& w) = fieldY v &&& fieldY w := by
  ext i hi
  simp [fieldY]

theorem fieldN_and (v w : Word) : fieldN (v &&& w) = fieldN v &&& fieldN w := by
  ext i hi
  simp [fieldN]

/-- A row selects a word when it does so nibble by nibble. -/
theorem OpcodeRow.selects_of_fields {m : String} {p k w : Word}
    (hc : fieldClass w &&& fieldClass k = fieldClass p) (hx : fieldX w &&& fieldX k = fieldX p)
    (hy : fieldY w &&& fieldY k = fieldY p) (hn : fieldN w &&& fieldN k = fieldN p) :
    (OpcodeRow.mk m p k).selects w = true := by
  show decide (w &&& k = p) = true
  rw [decide_eq_true_eq]
  apply word_ext_of_fields
  · rw [fieldClass_and, hc]
  · rw [fieldX_and, hx]
  · rw [fieldY_and, hy]
  · rw [fieldN_and, hn]

theorem fitsRegister_nibble (x : Nibble) : fitsRegister x.toNat = true := decide_eq_true x.isLt

theorem fitsHeight_nibble (n : Nibble) : fitsHeight n.toNat = true := decide_eq_true (Nat.le_of_lt_succ n.isLt)

theorem fitsByte_byte (kk : Byte) : fitsByte kk.toNat = true := decide_eq_true (Nat.le_of_lt_succ kk.isLt)

theorem fitsAddress_addr (nnn : Addr) : fitsAddress nnn.toNat = true :=
  decide_eq_true (Nat.le_of_lt_succ nnn.isLt)

/-- Every instruction is well-formed: the fields' types have exactly the widths of R76. -/
theorem wellFormed_of_instr (i : Instr) : i.wellFormed = true := by
  cases i <;>
    simp [Instr.wellFormed, fitsRegister_nibble, fitsHeight_nibble, fitsByte_byte, fitsAddress_addr]

end Sys2Proof

namespace Sys2Proof.Laws.RowSelects

/-- The instruction's fields are in range and the row it belongs to selects the word it is assembled to. -/
def Statement (i : Instr) : Prop := i.wellFormed = true ∧ i.row ∈ opcodeMap ∧ i.row.selects (encodeWord i) = true

theorem nibble_and_ones {b m : Nibble} (h : m = 0xF) : b &&& m = b := by
  subst h
  revert b
  decide

theorem nibble_and_zero {b m : Nibble} (h : m = 0) : b &&& m = 0 := by
  subst h
  exact BitVec.and_zero

/-- A row with mask 0xF000 selects every word of its class. -/
theorem selects_class {m : String} {p w : Word} (hc : fieldClass w = fieldClass p)
    (hx : fieldX p = 0) (hy : fieldY p = 0) (hn : fieldN p = 0) : (OpcodeRow.mk m p 0xF000).selects w = true := by
  apply OpcodeRow.selects_of_fields
  · rw [hc]
    exact nibble_and_ones rfl
  · rw [hx]
    exact nibble_and_zero rfl
  · rw [hy]
    exact nibble_and_zero rfl
  · rw [hn]
    exact nibble_and_zero rfl

/-- A row with mask 0xF00F selects every word of its class and sub-code. -/
theorem selects_sub {m : String} {p w : Word} (hc : fieldClass w = fieldClass p) (hn : fieldN w = fieldN p)
    (hx : fieldX p = 0) (hy : fieldY p = 0) : (OpcodeRow.mk m p 0xF00F).selects w = true := by
  apply OpcodeRow.selects_of_fields
  · rw [hc]
    exact nibble_and_ones rfl
  · rw [hx]
    exact nibble_and_zero rfl
  · rw [hy]
    exact nibble_and_zero rfl
  · rw [hn]
    exact nibble_and_ones rfl

/-- The low nibbles of a word of format XKK are those of `kk`. -/
theorem fieldN_assembleXKK (c x : Nibble) (kk : Byte) : fieldN (assembleXKK c x kk) = kk.extractLsb' 0 4 := by
  ext i hi
  simp [fieldN, getLsbD_assembleXKK, show i < 8 by omega]

theorem fieldY_assembleXKK (c x : Nibble) (kk : Byte) : fieldY (assembleXKK c x kk) = kk.extractLsb' 4 4 := by
  ext i hi
  simp [fieldY, getLsbD_assembleXKK, show 4 + i < 8 by omega]

/-- A row with mask 0xF0FF selects every word of its class and low byte. -/
theorem selects_low {m : String} {p : Word} {c x : Nibble} {kk : Byte} (hc : c = fieldClass p)
    (hy : kk.extractLsb' 4 4 = fieldY p) (hn : kk.extractLsb' 0 4 = fieldN p) (hx : fieldX p = 0) :
    (OpcodeRow.mk m p 0xF0FF).selects (assembleXKK c x kk) = true := by
  apply OpcodeRow.selects_of_fields
  · rw [fieldClass_assembleXKK, hc]
    exact nibble_and_ones rfl
  · rw [hx]
    exact nibble_and_zero rfl
  · rw [fieldY_assembleXKK, hy]
    exact nibble_and_ones rfl
  · rw [fieldN_assembleXKK, hn]
    exact nibble_and_ones rfl

/-- The three parts, with the row's place in the map left to evaluation. -/
theorem of_selects {i : Instr} (hr : i.row ∈ opcodeMap) (hs : i.row.selects (encodeWord i) = true) : Statement i :=
  ⟨wellFormed_of_instr i, hr, hs⟩

theorem clearScreen : Statement .clearScreen := of_selects (by simp [Instr.row, opcodeMap]) rfl

theorem ret : Statement .ret := of_selects (by simp [Instr.row, opcodeMap]) rfl

theorem jump (nnn : Addr) : Statement (.jump nnn) := of_selects (by simp [Instr.row, opcodeMap]) 
  (selects_class (fieldClass_assembleNNN _ _) rfl rfl rfl)

theorem call (nnn : Addr) : Statement (.call nnn) := of_selects (by simp [Instr.row, opcodeMap]) 
  (selects_class (fieldClass_assembleNNN _ _) rfl rfl rfl)

theorem skipEqImm (x : Nibble) (kk : Byte) : Statement (.skipEqImm x kk) := of_selects (by simp [Instr.row, opcodeMap]) 
  (selects_class (fieldClass_assembleXKK _ _ _) rfl rfl rfl)

theorem skipNeImm (x : Nibble) (kk : Byte) : Statement (.skipNeImm x kk) := of_selects (by simp [Instr.row, opcodeMap]) 
  (selects_class (fieldClass_assembleXKK _ _ _) rfl rfl rfl)

theorem skipEqReg (x y : Nibble) : Statement (.skipEqReg x y) := of_selects (by simp [Instr.row, opcodeMap]) 
  (selects_sub (fieldClass_assembleXYN _ _ _ _) (fieldN_assembleXYN _ _ _ _) rfl rfl)

theorem loadImm (x : Nibble) (kk : Byte) : Statement (.loadImm x kk) := of_selects (by simp [Instr.row, opcodeMap]) 
  (selects_class (fieldClass_assembleXKK _ _ _) rfl rfl rfl)

theorem addImm (x : Nibble) (kk : Byte) : Statement (.addImm x kk) := of_selects (by simp [Instr.row, opcodeMap]) 
  (selects_class (fieldClass_assembleXKK _ _ _) rfl rfl rfl)

theorem copy (x y : Nibble) : Statement (.copy x y) := of_selects (by simp [Instr.row, opcodeMap]) 
  (selects_sub (fieldClass_assembleXYN _ _ _ _) (fieldN_assembleXYN _ _ _ _) rfl rfl)

theorem bitOr (x y : Nibble) : Statement (.bitOr x y) := of_selects (by simp [Instr.row, opcodeMap]) 
  (selects_sub (fieldClass_assembleXYN _ _ _ _) (fieldN_assembleXYN _ _ _ _) rfl rfl)

theorem bitAnd (x y : Nibble) : Statement (.bitAnd x y) := of_selects (by simp [Instr.row, opcodeMap]) 
  (selects_sub (fieldClass_assembleXYN _ _ _ _) (fieldN_assembleXYN _ _ _ _) rfl rfl)

theorem bitXor (x y : Nibble) : Statement (.bitXor x y) := of_selects (by simp [Instr.row, opcodeMap]) 
  (selects_sub (fieldClass_assembleXYN _ _ _ _) (fieldN_assembleXYN _ _ _ _) rfl rfl)

theorem skipNeReg (x y : Nibble) : Statement (.skipNeReg x y) := of_selects (by simp [Instr.row, opcodeMap]) 
  (selects_sub (fieldClass_assembleXYN _ _ _ _) (fieldN_assembleXYN _ _ _ _) rfl rfl)

theorem setIndex (nnn : Addr) : Statement (.setIndex nnn) := of_selects (by simp [Instr.row, opcodeMap]) 
  (selects_class (fieldClass_assembleNNN _ _) rfl rfl rfl)

theorem jumpOffset (nnn : Addr) : Statement (.jumpOffset nnn) := of_selects (by simp [Instr.row, opcodeMap]) 
  (selects_class (fieldClass_assembleNNN _ _) rfl rfl rfl)

theorem randomAnd (x : Nibble) (kk : Byte) : Statement (.randomAnd x kk) := of_selects (by simp [Instr.row, opcodeMap]) 
  (selects_class (fieldClass_assembleXKK _ _ _) rfl rfl rfl)

theorem drawSprite (x y n : Nibble) : Statement (.drawSprite x y n) := of_selects (by simp [Instr.row, opcodeMap]) 
  (selects_class (fieldClass_assembleXYN _ _ _ _) rfl rfl rfl)

theorem setDelay (x : Nibble) : Statement (.setDelay x) := of_selects (by simp [Instr.row, opcodeMap]) 
  (selects_low rfl rfl rfl rfl)

theorem setSound (x : Nibble) : Statement (.setSound x) := of_selects (by simp [Instr.row, opcodeMap]) 
  (selects_low rfl rfl rfl rfl)

theorem addIndex (x : Nibble) : Statement (.addIndex x) := of_selects (by simp [Instr.row, opcodeMap]) 
  (selects_low rfl rfl rfl rfl)

end Sys2Proof.Laws.RowSelects
end

