-- ==== Sys2Proof/Machine/RefDisplay.lean ====
section
/-! DEFINITION. The reference display of `60_exceptions.md` R177, an aid the spec offers to close the system. It is no
part of the hardware: no transition of the machine uses it (log entry 5). -/

namespace Sys2Proof.Machine

/-- The pixels that are on, as (column, row) pairs, no pair twice. -/
abbrev Screen := List (Nat × Nat)

/-- Toggle one pixel; the Boolean says whether it was on. -/
def Screen.toggle (p : Nat × Nat) (on : Screen) : Bool × Screen :=
  if p ∈ on then (true, on.erase p) else (false, p :: on)

/-- The columns, counted from the sprite's origin, of the bits of a sprite byte that are 1, bit 7 leftmost (R177). -/
def litColumns (row : Byte) : List Nat := (List.range 8).filter fun c => row.getLsbD (7 - c)

/-- The pixels a sprite covers on a screen of `w` by `h` pixels, each wrapped at the edges (R177). -/
def spritePixels (w h : Nat) (sprite : List Byte) (x y : Byte) : List (Nat × Nat) :=
  (sprite.zipIdx.map fun r => (litColumns r.1).map fun c => ((x.toNat + c) % w, (y.toNat + r.2) % h)).flatten

/-- Toggle pixels one after the other; the Boolean says whether any was on (R177). -/
def Screen.toggleAll : List (Nat × Nat) → Screen → Bool × Screen
  | [], on => (false, on)
  | p :: ps, on =>
    ((Screen.toggle p on).1 || (Screen.toggleAll ps (Screen.toggle p on).2).1,
      (Screen.toggleAll ps (Screen.toggle p on).2).2)

/-- What the reference display does on a call: its answer and its next screen (R177). -/
def Screen.serve (w h : Nat) (c : DisplayCall) (on : Screen) : Bool × Screen :=
  match c with
  | .clear => (false, [])
  | .draw sprite x y => Screen.toggleAll (spritePixels w h sprite x y) on

/-- The screen after a sequence of calls, all pixels off at reset (R177). -/
def Screen.after (w h : Nat) (calls : List DisplayCall) : Screen :=
  calls.foldl (fun on c => (Screen.serve w h c on).2) []

/-- The answer the reference display gives to the call the next transition makes, if it makes one: the call is read off
a trial transition. -/
def refAnswers (w h : Nat) (s : State) : List DisplayAnswer :=
  match step { s with displayInput := [.ok false] } with
  | .next t =>
    (t.calls.drop s.calls.length).map fun c => .ok (Screen.serve w h c (Screen.after w h s.calls)).1
  | _ => []

/-- A transition of the closed system: the core with the reference display attached (R177). -/
def closedStep (w h : Nat) (s : State) : Answer := step { s with displayInput := refAnswers w h s }

end Sys2Proof.Machine
end

