-- ==== Sys2Proof/Tests/Slice0.lean ====
section
/-! SUPPORT. The model's own tests. Expected results are the vectors of `spec/95_test_vectors.md` (named in each
comment) or are worked out by hand from the rule named; the last part shows that the statements' hypotheses can be met. -/

namespace Sys2Proof.Tests

open Sys2Proof Sys2Proof.Machine

/-- The reset state with a word at 0x200. -/
def placed (w : Nat) : State := State.reset.withFetchWord 16 w

/-- The reset state with the empty program loaded and a step due. -/
def blankProgram : State := { State.reset with loaded := true, schedule := [.step] }

/-- The infinite schedule in which steps and ticks take turns. -/
def turns (k : Nat) : Transition := if k % 2 = 0 then .step else .tick

/-- The next state, for an answer that has one. -/
def nextState : Answer → State
  | .next t => t
  | _ => State.reset

/-- The answer is a next state. -/
def isNext : Answer → Bool
  | .next _ => true
  | _ => false

/-- One step. -/
def stepped (s : State) : State := nextState (step s)

/-- The reset state with values in registers 1 and 2. -/
def regs12 (s : State) (a b : Byte) : State := (s.writeV 1 a).writeV 2 b

/-! ### The checks of WellFormed, with a term each refuses -/

theorem test_register_16_refused : fitsRegister 16 = false ∧ fitsRegister 15 = true := by decide
theorem test_height_16_refused : fitsHeight 16 = false ∧ fitsHeight 15 = true := by decide
theorem test_byte_256_refused : fitsByte 256 = false ∧ fitsByte 255 = true := by decide
theorem test_address_4096_refused : fitsAddress 4096 = false ∧ fitsAddress 4095 = true := by decide

/-- FD8: words no row selects. -/
theorem test_unmapped_words_refused :
    ([0x5121, 0x9125, 0x8124, 0x812E, 0x00E1, 0x0000, 0x0123, 0xE0A1, 0xF007, 0xF00A, 0xF029, 0xF033, 0xF055, 0xF065,
      0xF01F].all fun w => !wordMapped w && (decodeWord w).isNone) = true := by decide

/-- FD9: the nearest accepted neighbours. -/
theorem test_mapped_neighbours :
    ([0x5120, 0x9120, 0x8120, 0x8123, 0x00E0, 0x00EE, 0xF015, 0xF018, 0xF01E].all fun w =>
      wordMapped w && (decodeWord w).isSome) = true := by decide

/-! ### Decoding: one word a constructor, written out from the patterns of R78 -/

theorem test_decode_control :
    decodeWord 0x00EE = some .ret ∧ decodeWord 0x12F0 = some (.jump 0x2F0) ∧
    decodeWord 0x2206 = some (.call 0x206) ∧ decodeWord 0xBABC = some (.jumpOffset 0xABC) := by decide

theorem test_decode_skips :
    decodeWord 0x332A = some (.skipEqImm 3 0x2A) ∧ decodeWord 0x432A = some (.skipNeImm 3 0x2A) ∧
    decodeWord 0x5120 = some (.skipEqReg 1 2) ∧ decodeWord 0x9120 = some (.skipNeReg 1 2) := by decide

theorem test_decode_registers :
    decodeWord 0x6A5B = some (.loadImm 0xA 0x5B) ∧ decodeWord 0x710A = some (.addImm 1 0x0A) ∧
    decodeWord 0x8120 = some (.copy 1 2) ∧ decodeWord 0x8121 = some (.bitOr 1 2) ∧
    decodeWord 0x8122 = some (.bitAnd 1 2) ∧ decodeWord 0x8123 = some (.bitXor 1 2) ∧
    decodeWord 0xC30F = some (.randomAnd 3 0x0F) := by decide

theorem test_decode_index_timers :
    decodeWord 0xA00A = some (.setIndex 0x00A) ∧ decodeWord 0xF21E = some (.addIndex 2) ∧
    decodeWord 0xF215 = some (.setDelay 2) ∧ decodeWord 0xF218 = some (.setSound 2) := by decide

theorem test_decode_display :
    decodeWord 0x00E0 = some .clearScreen ∧ decodeWord 0xD12F = some (.drawSprite 1 2 15) := by decide

/-- R84, R86: words of the spec's own examples, and their bytes. -/
theorem test_encode_words :
    encodeWord (.loadImm 3 0x2A) = 0x632A ∧ encodeWord (.drawSprite 0 1 5) = 0xD015 ∧
    encode (.jump 0x2F0) = [0x12, 0xF0] := by decide

/-- R73, R81: bytes after the word are left over, an unmapped word and a lone byte are refused by name. -/
theorem test_decode_bytes :
    decode [0x63, 0x2A, 0xFF] = .ok (.loadImm 3 0x2A, [0xFF]) ∧ decode [0xE0, 0x9E] = .error (.unmapped 0xE09E) ∧
    decode [0x63] = .error .truncated := by decide

theorem test_decode_table_word : decodeTableWord 16 0x8120 = some (.copy 1 2) ∧ decodeTableWord 16 0x8124 = none := by
  decide

/-! ### Control flow -/

/-- S3: return, with the stale entry kept. -/
theorem test_return :
    let s := { placed 0x00EE with sp := 1, stack := State.reset.stack.set 0 0x0202 }
    (stepped s).pc = 0x0202 ∧ (stepped s).sp = 0 ∧ (stepped s).stack[0] = 0x0202 := by decide

/-- S3: return with an empty stack. -/
theorem test_return_underflow :
    (stepped (placed 0x00EE)).status = .faulted .stackUnderflow ∧ (stepped (placed 0x00EE)).pc = 0x200 := by decide

/-- S4: jump is exact. -/
theorem test_jump : (stepped (placed 0x12F0)).pc = 0x02F0 := by decide

/-- CF3: a jump to itself leaves the state as it was, but for the transition taken off the schedule. -/
theorem test_self_jump : stepped (placed 0x1200) = (placed 0x1200).takeTransition := by decide

/-- CF4: a call at 0xFFE pushes 0x1000. -/
theorem test_call_at_top :
    let s := State.withFetchWord { State.reset with pc := 0xFFE } 16 0x2400
    (stepped s).stack[0] = 0x1000 ∧ (stepped s).sp = 1 ∧ (stepped s).pc = 0x400 := by decide

/-- S3: the 17th call. -/
theorem test_call_overflow :
    let s := { placed 0x2300 with sp := 16 }
    stepped s = { s.takeTransition with status := .faulted .stackOverflow } := by decide

/-- CF8: the sum is not reduced to 12 bits. -/
theorem test_jump_offset : (stepped ((placed 0xBFFF).writeV 0 0xFF)).pc = 0x10FE := by decide

/-- CF10: the offset is register 0, whatever the second nibble. -/
theorem test_jump_offset_register : (stepped (((placed 0xB200).writeV 0 1).writeV 2 0x50)).pc = 0x201 := by decide

/-! ### Skips (SK1 to SK10) -/

theorem test_skip_eq_imm :
    (stepped ((placed 0x332A).writeV 3 0x2A)).pc = 0x204 ∧ (stepped ((placed 0x332A).writeV 3 0x2B)).pc = 0x202 := by
  decide

theorem test_skip_ne_imm :
    (stepped ((placed 0x432A).writeV 3 0x2A)).pc = 0x202 ∧ (stepped (placed 0x432A)).pc = 0x204 := by decide

theorem test_skip_eq_reg :
    (stepped (regs12 (placed 0x5120) 7 7)).pc = 0x204 ∧ (stepped (regs12 (placed 0x5120) 7 8)).pc = 0x202 := by decide

theorem test_skip_ne_reg :
    (stepped (regs12 (placed 0x9120) 7 8)).pc = 0x204 ∧ (stepped (regs12 (placed 0x9120) 7 7)).pc = 0x202 := by decide

/-! ### Register operations -/

/-- RG1: the flag register is an ordinary destination. -/
theorem test_load_imm : (stepped (placed 0x6F55)).readV 15 = 0x55 ∧ (stepped (placed 0x6F55)).pc = 0x202 := by decide

/-- S2: 250 + 10 = 4, with the flag register left alone. -/
theorem test_add_imm_wraps :
    let s := ((placed 0x710A).writeV 1 250).writeV 15 9
    (stepped s).readV 1 = 4 ∧ (stepped s).readV 15 = 9 := by decide

/-- RG6: the sum, not a carry, in register 15. -/
theorem test_add_imm_flag : (stepped ((placed 0x7F02).writeV 15 0xFF)).readV 15 = 0x01 := by decide

/-- RG7: from y to x. -/
theorem test_copy :
    (stepped (regs12 (placed 0x8120) 0 0x5C)).readV 1 = 0x5C ∧ (stepped (regs12 (placed 0x8120) 0 0x5C)).readV 2 = 0x5C := by
  decide

/-- RG9. -/
theorem test_or :
    let s := (regs12 (placed 0x8121) 0xF0 0x0F).writeV 15 7
    (stepped s).readV 1 = 0xFF ∧ (stepped s).readV 15 = 7 := by decide

/-- RG10. -/
theorem test_and : (stepped (regs12 (placed 0x8122) 0xFC 0x3F)).readV 1 = 0x3C := by decide

/-- RG11. -/
theorem test_xor : (stepped (regs12 (placed 0x8123) 0xFF 0x0F)).readV 1 = 0xF0 := by decide

/-- RG14: the draw 0xA7. -/
theorem test_random_and :
    (stepped { placed 0xC30F with randomInput := [0xA7] }).readV 3 = 0x07 := by decide

/-! ### Index and timers -/

/-- T2. -/
theorem test_set_index : (stepped (placed 0xAFFF)).index = 0xFFF := by decide

/-- T6, with the flag register left alone (T4). -/
theorem test_add_index_wraps :
    let s := ((placed 0xF21E).writeV 2 0xFF).setIndex 0xFFF
    (stepped s).index = 0x0FE ∧ (stepped s).readV 15 = 0 := by decide

/-- T8: only the delay timer. -/
theorem test_set_delay :
    (stepped ((placed 0xF215).writeV 2 5)).dt = 5 ∧ (stepped ((placed 0xF215).writeV 2 5)).st = 0 := by decide

/-- T9: only the sound timer. -/
theorem test_set_sound :
    (stepped ((placed 0xF218).writeV 2 5)).st = 5 ∧ (stepped ((placed 0xF218).writeV 2 5)).dt = 0 := by decide

/-- T11, T12: a tick the schedule gives, saturating. -/
theorem test_tick :
    let s := { placed 0x6001 with schedule := [.tick], dt := 3, st := 0 }
    (stepped s).dt = 2 ∧ (stepped s).st = 0 ∧ (stepped s).pc = 0x200 ∧ (stepped s).schedule = [] := by decide

/-! ### Display -/

/-- DS1. -/
theorem test_clear_screen :
    let s := { placed 0x00E0 with displayInput := [.ok false] }
    (stepped s).calls = [.clear] ∧ (stepped s).pc = 0x202 := by decide

/-- DS2. -/
theorem test_clear_screen_fails :
    let s := { placed 0x00E0 with displayInput := [.fails 7] }
    (stepped s).status = .faulted (.collaboratorFailure 7) ∧ (stepped s).pc = 0x200 := by decide

/-- DS8: the old value of register 15 is the x coordinate, then the flag is written. -/
theorem test_draw_sprite :
    let s := { (regs12 (placed 0xDF15) 4 0).writeV 15 3 with index := 0x00A, displayInput := [.ok true] }
    (stepped s).calls = [.draw [0xF0, 0x10, 0xF0, 0x80, 0xF0] 3 4] ∧ (stepped s).readV 15 = 1 := by decide

/-- DS5: past the end of memory, with no call. -/
theorem test_draw_sprite_range :
    let s := { placed 0xD005 with index := 0xFFC }
    stepped s = { s.takeTransition with status := .faulted (.memoryOutOfRange 0xFFC 5) } := by decide

/-- Section 4 of the test vectors, P3: on the reference display of 64 by 32 pixels the glyph drawn once does not
collide, and drawn again it does and leaves the screen blank (R177). -/
theorem test_reference_display :
    let c := DisplayCall.draw [0xF0, 0x10, 0xF0, 0x80, 0xF0] 5 7
    (Screen.serve 64 32 c []).1 = false ∧ (Screen.serve 64 32 c (Screen.after 64 32 [.clear, c])).1 = true ∧
    Screen.after 64 32 [c, c] = [] := by decide

/-- The closed system gives the flag the reference display's answer (R177): a draw over the same glyph collides. -/
theorem test_closed_step :
    let s := { placed 0xD125 with calls := [.draw [0xF0, 0x90, 0x90, 0x90, 0xF0] 0 0] }
    (nextState (closedStep 64 32 s)).readV 15 = 1 := by decide

/-! ### Fetch, errors, reset and load -/

/-- S8, R140: the Unknown form. -/
theorem test_unknown_word :
    stepped (placed 0xE19E) =
      { (placed 0xE19E).takeTransition with status := .faulted (.unimplementedOpcode 0xE19E 0x200) } := by decide

/-- FD3. -/
theorem test_fetch_out_of_range :
    (stepped { blankProgram with pc := 0xFFF }).status = .faulted (.fetchOutOfRange 0xFFF) := by decide

/-- FD4: an odd program counter. -/
theorem test_fetch_odd :
    let s := State.withFetchWord { State.reset with pc := 0x203 } 16 0x612A
    (stepped s).readV 1 = 0x2A ∧ (stepped s).pc = 0x205 := by decide

/-- CF2: at address 0 the fetch reads the default font. -/
theorem test_fetch_font :
    (stepped { blankProgram with pc := 0 }).status = .faulted (.unimplementedOpcode 0xF090 0) := by decide

/-- R40: nothing runs after an error. -/
theorem test_session_over :
    step { State.reset with status := .faulted .stackOverflow } = .fault (.sessionOver .stackOverflow) := rfl

/-- RL1. -/
theorem test_reset_memory :
    Memory.read State.reset.mem 0x04F = 0x80 ∧ Memory.read State.reset.mem 0x050 = 0 ∧
    Memory.read State.reset.mem 0x200 = 0 ∧ Memory.wf State.reset.mem = true := by decide

/-- RL2: the bytes of a program stand at 0x200. -/
theorem test_load :
    let t := nextState (boot [0x12, 0x00])
    Memory.read t.mem 0x200 = 0x12 ∧ Memory.read t.mem 0x201 = 0x00 ∧ t.mem = [(0x200, 0x12)] ∧ t.pc = 0x200 := by
  decide

/-- R194: a second load is refused. -/
theorem test_second_load : loadProgram [0x12] (nextState (boot [0x12, 0x00])) = .refused .loadOutOfOrder := rfl

/-- R194, D28: a step and a tick before the load are refused, and so is a load after either, or of memory that is not
what reset left; with the load first they run. -/
theorem test_session_order :
    step State.reset = .refused .noProgramLoaded ∧ transition .tick State.reset = .refused .noProgramLoaded ∧
    loadProgram [0x12] (nextState (transition .tick (nextState (boot [])))) = .refused .loadOutOfOrder ∧
    loadProgram [0x12] { State.reset with mem := [(0x300, 5)] } = .refused .loadOutOfOrder ∧
    isNext (transition .step (nextState (boot []))) = true := ⟨rfl, rfl, rfl, rfl, by decide⟩

/-- A reset keeps the counters of the free values, so a second session's free draws are fresh (log entries 4 to 6). -/
theorem test_fresh_draws :
    let s := { State.reset with answers := 2, draws := 3, moves := 5 }
    (hostReset Config.defaultFont s).nextAnswer = freeAnswer 2 ∧
    (hostReset Config.defaultFont s).nextRandom = Config.randomByte 3 ∧
    (hostReset Config.defaultFont s).nextTransition = freeTransition 5 := ⟨rfl, rfl, rfl⟩

/-- D28: after a load that failed nothing runs (R200). -/
theorem test_failed_load_stops :
    step { State.reset with status := .faulted .programTooLarge } = .fault (.sessionOver .programTooLarge) := rfl

/-- A write of the unlisted value removes the entry, and rewriting keeps the order. -/
theorem test_memory_canonical :
    Memory.write (Memory.write [] 0x300 5) 0x300 0 = [] ∧
    Memory.write (Memory.write [] 0x300 5) 0x200 7 = [(0x200, 7), (0x300, 5)] := by decide

/-! ### The statements' hypotheses can be met -/

theorem witness_EncodeOfDecodeIsIdentity : decodeWord 0xD12F = some (.drawSprite 1 2 15) := by decide

theorem witness_DecoderFollowsTheOpcodeMap : decodeWord 0xF31E = some (.addIndex 3) := by decide

theorem witness_OpcodeRowsAreDisjoint :
    OpcodeRow.mk "or" 0x8001 0xF00F ∈ opcodeMap ∧ (OpcodeRow.mk "or" 0x8001 0xF00F).selects 0x8121 = true := by decide

theorem witness_DecodeOfEncodeIsIdentity : (Instr.drawSprite 15 15 15).wellFormed = true := by decide

/-- At the last address a fetch may have. -/
theorem witness_StepRunsTheDecodedInstruction :
    let s := State.withFetchWord { State.reset with pc := 0xFFE } 16 0x6001
    s.Live ∧ s.nextTransition = .step ∧ s.pc.toNat ≤ 0xFFE ∧ (Instr.loadImm 0 1).wellFormed = true ∧
    decode [Memory.read s.mem s.pc.toNat, Memory.read s.mem (s.pc.toNat + 1)] = .ok (.loadImm 0 1, []) := by decide

theorem witness_PlacedWordIsTheNextFetch :
    let s := { State.reset with pc := 0xFFE, schedule := [.tick] }
    Memory.wf s.mem = true ∧ s.pc.toNat ≤ 0xFFE := by decide

theorem witness_UnknownWordRaisesUnimplementedOpcode :
    let s := { blankProgram with pc := 0xFFE }
    s.Live ∧ s.pc.toNat ≤ 0xFFE ∧ wordMapped (Memory.fetch16 s.mem s.pc.toNat) = false := by decide

theorem witness_FetchPastMemoryRaisesFetchOutOfRange :
    let s := { blankProgram with pc := 0xFFF }
    s.Live ∧ 0xFFE < s.pc.toNat := by decide

theorem witness_FaultedSessionHasNoTransition :
    ({ State.reset with status := .faulted (.fetchOutOfRange 0x1000) } : State).status =
      .faulted (.fetchOutOfRange 0x1000) := by decide

theorem witness_RunningMachineAlwaysMoves : blankProgram.Live := by decide

theorem witness_StepRaisesExactlyTheListedErrors :
    blankProgram.Live ∧ StepRaises blankProgram (.unimplementedOpcode 0 0x200) :=
  ⟨⟨rfl, rfl⟩, .unknown (by decide) (by decide)⟩

/-- Each of the seven clauses of `StepRaises` at a boundary value. -/
theorem witness_StepRaises_clauses :
    StepRaises { blankProgram with pc := 0xFFF } (.fetchOutOfRange 0xFFF) ∧
    StepRaises { blankProgram with pc := 0xFFE } (.unimplementedOpcode 0 0xFFE) ∧
    StepRaises { placed 0x2300 with sp := 16 } .stackOverflow ∧ StepRaises (placed 0x00EE) .stackUnderflow ∧
    StepRaises { placed 0xD001 with index := 0xFFF, mem := (placed 0xD002).mem } (.memoryOutOfRange 0xFFF 2) ∧
    StepRaises { placed 0x00E0 with displayInput := [.fails 0] } (.collaboratorFailure 0) ∧
    StepRaises { placed 0xD001 with index := 0xFFF, displayInput := [.fails 1] } (.collaboratorFailure 1) :=
  ⟨.fetch (by decide), .unknown (by decide) (by decide), .overflow 0x300 rfl rfl, .underflow rfl rfl,
    .sprite 0 0 2 rfl (by decide), .clear 0 rfl rfl, .draw 0 0 1 1 rfl (by decide) rfl⟩

theorem witness_FailingStepChangesNoCoreState :
    blankProgram.Live ∧ transition .step blankProgram = .next (nextState (transition .step blankProgram)) ∧
    (nextState (transition .step blankProgram)).status = .faulted (.unimplementedOpcode 0 0x200) := ⟨⟨rfl, rfl⟩, rfl, by decide⟩

theorem witness_ReturnPopsTheReturnAddress_pop : 0 < ({ State.reset with sp := 1 } : State).sp.val ∧
    0 < ({ State.reset with sp := 16 } : State).sp.val := by decide

theorem witness_ReturnPopsTheReturnAddress_underflow : State.reset.sp.val = 0 := by decide

theorem witness_CallPushesTheNextAddress_push : ({ State.reset with sp := 15 } : State).sp.val < 16 ∧
    State.reset.sp.val < 16 := by decide

theorem witness_CallPushesTheNextAddress_overflow : ({ State.reset with sp := 16 } : State).sp.val = 16 := by decide

/-- A call, a tick, and a return from the same depth. -/
theorem witness_ReturnMatchesItsCall :
    blankProgram.sp.val < 16 ∧ exec (.call 0x300) blankProgram = .next (nextState (exec (.call 0x300) blankProgram)) ∧
    StaysAbove (blankProgram.sp.val + 1) [.tick] (nextState (exec (.call 0x300) blankProgram)) ∧
    runSchedule [.tick] (nextState (exec (.call 0x300) blankProgram)) =
      .next (tick (nextState (exec (.call 0x300) blankProgram))) ∧
    (tick (nextState (exec (.call 0x300) blankProgram))).sp.val = blankProgram.sp.val + 1 := by
  refine ⟨by decide, rfl, ?_, rfl, by decide⟩
  intro k u h
  cases k with
  | zero =>
    cases h
    decide
  | succ k =>
    cases k <;>
    · cases h
      decide

theorem witness_SequentialAdvanceIsExact :
    let s := { State.reset with pc := 0xFFE }
    s.pc.toNat ≤ 0xFFE ∧ s.Running ∧ exec (.skipEqImm 0 0) s = .next (nextState (exec (.skipEqImm 0 0) s)) ∧
    (nextState (exec (.skipEqImm 0 0) s)).Running ∧ setsPc (.skipEqImm 0 0) = false ∧
    isSkip (.skipEqImm 0 0) = true ∧ isSkip (.loadImm 0 0) = false ∧ setsPc (.loadImm 0 0) = false :=
  ⟨by decide, rfl, rfl, rfl, rfl, rfl, rfl, rfl⟩

/-- Both outcomes of each skip's test occur. -/
theorem witness_skips :
    State.reset.readV 3 = 0 ∧ State.reset.readV 3 ≠ 0x2A ∧ State.reset.readV 1 = State.reset.readV 2 ∧
    (regs12 State.reset 7 8).readV 1 ≠ (regs12 State.reset 7 8).readV 2 ∧ (1 : Nibble) ≠ 0 := by decide

theorem witness_RandomAndMasksAnyByte : (0xF0 : Byte) &&& ~~~(0xF0 : Byte) = 0 ∧ (0 : Byte) &&& ~~~(0 : Byte) = 0 := by
  decide

theorem witness_RegistersChangeOnlyAtTheDestination :
    isNext (exec (.drawSprite 0 1 5) State.reset) = true ∧ destination (.drawSprite 0 1 5) ≠ some 14 := by decide

theorem witness_ControlRegistersChangeOnlyByTheirInstructions :
    let t := nextState (exec (.setIndex 1) State.reset)
    exec (.setIndex 1) State.reset = .next t ∧ t.index ≠ State.reset.index ∧
    (nextState (exec (.setDelay 1) (regs12 State.reset 5 0))).dt ≠ (regs12 State.reset 5 0).dt ∧
    (nextState (exec (.setSound 1) (regs12 State.reset 5 0))).st ≠ (regs12 State.reset 5 0).st :=
  ⟨rfl, by decide, by decide, by decide⟩

theorem witness_ticks : blankProgram.Live := by decide

/-- A run with a step between two ticks that writes neither timer. -/
theorem witness_TicksSaturateAtZero :
    isNext (runSchedule [.tick, .step, .tick] (placed 0x6001)) = true ∧
    StepsAvoid (fun i => ∃ x, i = .setDelay x) [.tick, .step, .tick] (placed 0x6001) ∧
    StepsAvoid (fun i => ∃ x, i = .setSound x) [.tick, .step, .tick] (placed 0x6001) := by
  have h : ∀ (k : Nat) (u : State) (i : Instr), runSchedule ([Transition.tick, .step, .tick].take k) (placed 0x6001) =
      .next u → [Transition.tick, .step, .tick][k]? = some .step → fetchDecode u = .ok i → i = .loadImm 0 1 := by
    intro k u i hr hk hd
    match k with
    | 0 => simp at hk
    | 1 =>
      cases hr
      cases hd
      rfl
    | 2 => simp at hk
    | k + 3 => simp at hk
  refine ⟨by decide, fun k u i hr hk hd ⟨x, hx⟩ => ?_, fun k u i hr hk hd ⟨x, hx⟩ => ?_⟩ <;>
  · rw [h k u i hr hk hd] at hx
    cases hx

/-- An empty stack, the last free place and a full stack. -/
theorem witness_SeventeenthNestedCallOverflows :
    State.reset.sp.val = 0 ∧ (List.replicate 16 (0x300 : Addr)).length = 16 ∧
    ({ State.reset with sp := 15 } : State).sp.val < 16 ∧ ({ State.reset with sp := 16 } : State).sp.val = 16 := by decide

/-- Two schedules with one step each, from states that differ in a timer. -/
theorem witness_ScheduleAffectsOnlyTheTimers :
    let s₁ := placed 0x6001
    let s₂ := { placed 0x6001 with dt := 9 }
    engineSteps [.step, .tick] = engineSteps [.step] ∧ SameButTimers s₁ s₂ ∧
    isNext (runSchedule [.step, .tick] s₁) = true ∧ isNext (runSchedule [.step] s₂) = true :=
  ⟨by decide, rfl, by decide, by decide⟩

/-- Beyond the supplied transitions the schedule is free, and an infinite schedule's beginning runs (R169, R170). -/
theorem test_schedule :
    ({ State.reset with schedule := [.tick], moves := 7 } : State).scheduled 0 = .tick ∧
    ({ State.reset with schedule := [.tick], moves := 7 } : State).scheduled 2 = freeTransition 9 ∧
    firstTransitions turns 3 = [.step, .tick, .step] ∧ isNext (runFirst turns 3 (placed 0x1200)) = true :=
  ⟨rfl, rfl, by decide, by decide⟩

/-- Steps and ticks in turn are weakly fair from any state. -/
theorem turns_fair (s : State) : WeaklyFair turns s := by
  intro t n _
  cases t with
  | step => exact ⟨2 * n, by omega, by simp [turns]⟩
  | tick => exact ⟨2 * n + 1, by omega, by simp [turns]⟩

theorem witness_OnlyCallAndReturnReachTheStack :
    isNext (exec (.jump 0x300) State.reset) = true ∧ (∀ nnn, Instr.jump 0x300 ≠ .call nnn) ∧
    Instr.jump 0x300 ≠ .ret ∧ isNext (exec .ret { State.reset with sp := 1 }) = true :=
  ⟨rfl, fun _ h => (by cases h), (by decide), rfl⟩

theorem witness_MemoryIsConstantDuringASession :
    isNext (exec (.call 0x300) State.reset) = true ∧ isNext (runSchedule [.step, .tick] (placed 0x6001)) = true := by
  decide

theorem witness_ClearScreenCallsTheDisplay :
    ({ State.reset with displayInput := [.ok false] } : State).nextAnswer = .ok false ∧
    ({ State.reset with displayInput := [.ok true] } : State).nextAnswer = .ok true ∧
    ({ State.reset with displayInput := [.fails 3] } : State).nextAnswer = .fails 3 := ⟨rfl, rfl, rfl⟩

/-- The last sprite that fits and the first that does not. -/
theorem witness_DrawSpriteCallsTheDisplayAndSetsTheFlag :
    let s := { State.reset with index := 0xFFC, displayInput := [.ok true] }
    let f := { State.reset with index := 0xFFC, displayInput := [.fails 3] }
    (s.index.toNat + (4 : Nibble).toNat ≤ 0x1000 ∧ s.nextAnswer = .ok true) ∧
    0x1000 < s.index.toNat + (5 : Nibble).toNat ∧
    (f.index.toNat + (4 : Nibble).toNat ≤ 0x1000 ∧ f.nextAnswer = .fails 3) := by decide

theorem witness_OnlyDisplayInstructionsCallTheDisplay :
    isNext (exec .clearScreen State.reset) = true ∧ isNext (exec (.drawSprite 0 1 5) State.reset) = true ∧
    isNext (exec (.copy 0 1) State.reset) = true ∧ isNext (runSchedule [.step] (placed 0x00E0)) = true := by decide

theorem witness_fonts : (List.replicate 80 (0xA5 : Byte)).length = 80 ∧ Config.defaultFont.length = 80 := by decide

/-- The longest program that fits and the shortest that does not. -/
theorem witness_LoadProgramCopiesTheBytes :
    (List.replicate 0xE00 (0 : Byte)).length ≤ 0xE00 ∧ 0xE00 < (List.replicate 0xE01 (0 : Byte)).length :=
  ⟨Nat.le_of_eq List.length_replicate, Nat.le_of_eq List.length_replicate.symm⟩

/-- A load that succeeds with a step and a tick after it, and one that fails with nothing after it. -/
theorem witness_SecondLoadIsRefused :
    isNext (loadProgram [0x12] State.reset) = true ∧
    isNext (runSchedule [.step, .tick] (nextState (loadProgram [0x12, 0x00] State.reset))) = true ∧
    loadProgram (List.replicate 0xE01 0) State.reset = .next { State.reset with status := .faulted .programTooLarge } :=
  ⟨by decide, by decide, by
    have h : freshlyReset State.reset = true := by decide
    simp only [loadProgram, h, if_true, List.length_replicate]
    rfl⟩

/-- A state before its load, and the shortest and the longest program that loads. -/
theorem witness_TransitionsWaitForTheLoad :
    State.reset.Running ∧ State.reset.loaded = false ∧ ([] : List Byte).length ≤ 0xE00 ∧
    (List.replicate 0xE00 (0 : Byte)).length ≤ 0xE00 := ⟨rfl, rfl, Nat.zero_le _, Nat.le_of_eq List.length_replicate⟩

theorem witness_StepKeepsTheInvariant : blankProgram.Inv ∧ isNext (step blankProgram) = true :=
  ⟨⟨by decide, by decide, by decide⟩, by decide⟩

theorem witness_ReachableStatesAreBounded :
    Config.defaultFont.length = 80 ∧
    loadProgram [0x12, 0x00] (hostReset Config.defaultFont State.reset) =
      .next (nextState (loadProgram [0x12, 0x00] (hostReset Config.defaultFont State.reset))) ∧
    isNext (runSchedule [.step, .tick]
      (nextState (loadProgram [0x12, 0x00] (hostReset Config.defaultFont State.reset)))) = true :=
  ⟨rfl, rfl, by decide⟩

theorem witness_EveryInfiniteScheduleRunsOrEndsInAnError :
    blankProgram.Live ∧ (placed 0x1200).Live ∧
    runFirst turns 1 blankProgram = .next (nextState (runFirst turns 1 blankProgram)) ∧
    runFirst turns 2 blankProgram = .fault (.sessionOver (.unimplementedOpcode 0 0x200)) :=
  ⟨⟨rfl, rfl⟩, ⟨rfl, rfl⟩, rfl, rfl⟩

theorem witness_FairScheduleRunsTheTimersOut :
    let s := { placed 0x1200 with dt := 255 }
    s.Finished ∧ s.Live ∧ WeaklyFair turns s ∧ s.dt ≠ 0 := ⟨⟨0x200, rfl, rfl⟩, ⟨rfl, rfl⟩, turns_fair _, by decide⟩

theorem witness_FinishedProgramStaysFinished : (placed 0x1200).Finished ∧ (placed 0x1200).Live :=
  ⟨⟨0x200, rfl, rfl⟩, rfl, rfl⟩

end Sys2Proof.Tests
end

section
/-! SUPPORT. What an instruction can do, said once (`Effect`), and what a step, a run and a load can do, for the proofs
about the state (`10_state.md`). -/

namespace Sys2Proof.Machine

/-! ### The effect of an instruction -/

/-- `Effect s i t`: executing `i` in `s` can leave `t`. One constructor for each way an instruction completes or fails,
with the condition under which it does. The byte an instruction writes to its destination and the outcome of a skip's
test are left open: no frame and no bound depends on them. -/
inductive Effect (s : State) : Instr → State → Prop
  | overflow {nnn : Addr} (hsp : s.sp.val = 16) : Effect s (.call nnn) (s.setFaulted .stackOverflow)
  | underflow (hsp : s.sp.val = 0) : Effect s .ret (s.setFaulted .stackUnderflow)
  | outOfRange {x y n : Nibble} (hb : spriteBytes n s = none) :
      Effect s (.drawSprite x y n) (s.setFaulted (.memoryOutOfRange s.index n))
  | clearFails {info : FailureInfo} (ha : s.nextAnswer = .fails info) :
      Effect s .clearScreen ((s.recordCall .clear).setFaulted (.collaboratorFailure info))
  | drawFails {x y n : Nibble} {sprite : List Byte} {info : FailureInfo} (hb : spriteBytes n s = some sprite)
      (ha : s.nextAnswer = .fails info) : Effect s (.drawSprite x y n)
        ((s.recordCall (drawCall x y sprite s)).setFaulted (.collaboratorFailure info))
  | clears {c : Bool} (ha : s.nextAnswer = .ok c) : Effect s .clearScreen (s.recordCall .clear).advance
  | draws {x y n : Nibble} {sprite : List Byte} {c : Bool} (hb : spriteBytes n s = some sprite)
      (ha : s.nextAnswer = .ok c) : Effect s (.drawSprite x y n)
        ((s.recordCall (drawCall x y sprite s)).setFlag c).advance
  | returns {k : Fin 16} (hk : k.val + 1 = s.sp.val) :
      Effect s .ret (State.setPc { s with sp := k.castSucc } s.stack[k])
  | calls {nnn : Addr} (hsp : s.sp.val < 16) : Effect s (.call nnn) (State.setPc
      { s with
        stack := s.stack.set s.sp.val (returnAddress s) hsp
        sp := ⟨s.sp.val + 1, Nat.succ_lt_succ hsp⟩ }
      (absoluteTarget nnn))
  | jumps {nnn : Addr} : Effect s (.jump nnn) (s.setPc (absoluteTarget nnn))
  | jumpsOffset {nnn : Addr} : Effect s (.jumpOffset nnn) (s.setPc (offsetTarget nnn s))
  | skips {i : Instr} {c : Bool} (hi : isSkip i = true) : Effect s i (s.skipIf c)
  | writes {i : Instr} {x : Nibble} {b : Byte} (hd : destination i = some x) : Effect s i (s.writeV x b).advance
  | writesRandom {x : Nibble} {kk b : Byte} : Effect s (.randomAnd x kk) (s.drawRandom.writeV x b).advance
  | setsIndex {nnn : Addr} : Effect s (.setIndex nnn) (s.setIndex nnn).advance
  | addsIndex {x : Nibble} : Effect s (.addIndex x) (s.setIndex (indexSum x s)).advance
  | setsDelay {x : Nibble} : Effect s (.setDelay x) (s.setDelay (s.readV x)).advance
  | setsSound {x : Nibble} : Effect s (.setSound x) (s.setSound (s.readV x)).advance

theorem execRet_effect (s : State) : ∃ t, execRet s = .next t ∧ Effect s .ret t := by
  unfold execRet
  obtain ⟨hpos, hp⟩ | ⟨hsp, hp⟩ := pop_cases s <;> rw [hp]
  · exact ⟨_, rfl, .returns (k := ⟨s.sp.val - 1, by omega⟩) (Nat.sub_add_cancel hpos)⟩
  · exact ⟨_, rfl, .underflow hsp⟩

theorem execCall_effect (nnn : Addr) (s : State) : ∃ t, execCall nnn s = .next t ∧ Effect s (.call nnn) t := by
  unfold execCall
  obtain ⟨hlt, hp⟩ | ⟨hsp, hp⟩ := push_cases (returnAddress s) s <;> rw [hp]
  · exact ⟨_, rfl, .calls hlt⟩
  · exact ⟨_, rfl, .overflow hsp⟩

theorem execClearScreen_effect (s : State) : ∃ t, execClearScreen s = .next t ∧ Effect s .clearScreen t := by
  obtain ⟨c, ha, h⟩ | ⟨info, ha, h⟩ := callDisplay_cases .clear (fun _ t => t.advance) s
  · exact ⟨_, h, .clears ha⟩
  · exact ⟨_, h, .clearFails ha⟩

theorem execDrawSprite_effect (x y n : Nibble) (s : State) :
    ∃ t, execDrawSprite x y n s = .next t ∧ Effect s (.drawSprite x y n) t := by
  unfold execDrawSprite
  cases hb : spriteBytes n s with
  | none => exact ⟨_, rfl, .outOfRange hb⟩
  | some sprite =>
    obtain ⟨c, ha, h⟩ | ⟨info, ha, h⟩ :=
      callDisplay_cases (drawCall x y sprite s) (fun c t => (t.setFlag c).advance) s
    · exact ⟨_, h, .draws hb ha⟩
    · exact ⟨_, h, .drawFails hb ha⟩

/-- Every instruction has a meaning in every state, and it is one of the listed effects. -/
theorem exec_effect (i : Instr) (s : State) : ∃ t, exec i s = .next t ∧ Effect s i t := by
  cases i with
  | clearScreen => exact execClearScreen_effect s
  | ret => exact execRet_effect s
  | call nnn => exact execCall_effect nnn s
  | drawSprite x y n => exact execDrawSprite_effect x y n s
  | jump nnn => exact ⟨_, rfl, .jumps⟩
  | jumpOffset nnn => exact ⟨_, rfl, .jumpsOffset⟩
  | skipEqImm x kk => exact ⟨_, rfl, .skips rfl⟩
  | skipNeImm x kk => exact ⟨_, rfl, .skips rfl⟩
  | skipEqReg x y => exact ⟨_, rfl, .skips rfl⟩
  | skipNeReg x y => exact ⟨_, rfl, .skips rfl⟩
  | loadImm x kk => exact ⟨_, rfl, .writes rfl⟩
  | addImm x kk => exact ⟨_, rfl, .writes rfl⟩
  | copy x y => exact ⟨_, rfl, .writes rfl⟩
  | bitOr x y => exact ⟨_, rfl, .writes rfl⟩
  | bitAnd x y => exact ⟨_, rfl, .writes rfl⟩
  | bitXor x y => exact ⟨_, rfl, .writes rfl⟩
  | randomAnd x kk => exact ⟨_, rfl, .writesRandom⟩
  | setIndex nnn => exact ⟨_, rfl, .setsIndex⟩
  | addIndex x => exact ⟨_, rfl, .addsIndex⟩
  | setDelay x => exact ⟨_, rfl, .setsDelay⟩
  | setSound x => exact ⟨_, rfl, .setsSound⟩

/-- The inversion of `exec`: an answer is one of the listed effects. -/
theorem effect_of_exec {i : Instr} {s t : State} (h : exec i s = .next t) : Effect s i t := by
  obtain ⟨u, hu, he⟩ := exec_effect i s
  cases h.symm.trans hu
  exact he

/-! ### The call stack -/

/-- Reading an entry after one is set. -/
theorem getElem_set_stack (v : Vector Word 16) {j : Nat} (hj : j < 16) (a : Word) (k : Fin 16) :
    (v.set j a hj)[k] = if k.val = j then a else v[k] := by
  simp [Vector.getElem_set, eq_comm]

/-- Settles O56, by the two outcomes of a push. -/
theorem pushStoresAndIncrements : Obligations.PushStoresAndIncrements :=
  fun a _ => ⟨push_of_full, fun h => ⟨_, push_of_lt h, rfl, getElem_set_stack _ h a, rfl⟩⟩

/-! ### What an instruction leaves unchanged -/

section Frames

variable {s t : State} {i : Instr}

/-- No register but the destination changes (`10_state.md` R21, R30). -/
theorem Effect.readV_eq (h : Effect s i t) {r : Nibble} (hr : destination i ≠ some r) : t.readV r = s.readV r := by
  cases h with
  | draws hb ha => exact State.setFlag_readV_ne _ _ r fun e => hr (congrArg some e.symm)
  | writes hd => exact State.readV_writeV_ne _ _ _ _ fun e => hr (hd.trans (congrArg some e.symm))
  | writesRandom => exact State.readV_writeV_ne _ _ _ _ fun e => hr (congrArg some e.symm)
  | _ => rfl

/-- Only set-index and add-to-index change `I` (`10_state.md` R32). -/
theorem Effect.index_eq (h : Effect s i t) :
    t.index = s.index ∨ (∃ nnn, i = .setIndex nnn) ∨ ∃ x, i = .addIndex x := by
  cases h with
  | setsIndex => exact .inr (.inl ⟨_, rfl⟩)
  | addsIndex => exact .inr (.inr ⟨_, rfl⟩)
  | _ => exact .inl rfl

/-- Only set-delay-timer changes `DT` (`10_state.md` R34). -/
theorem Effect.dt_eq (h : Effect s i t) : t.dt = s.dt ∨ ∃ x, i = .setDelay x := by
  cases h with
  | setsDelay => exact .inr ⟨_, rfl⟩
  | _ => exact .inl rfl

/-- Only set-sound-timer changes `ST` (`10_state.md` R35). -/
theorem Effect.st_eq (h : Effect s i t) : t.st = s.st ∨ ∃ x, i = .setSound x := by
  cases h with
  | setsSound => exact .inr ⟨_, rfl⟩
  | _ => exact .inl rfl

/-- No instruction writes memory (`10_state.md` R42). -/
theorem Effect.mem_eq (h : Effect s i t) : t.mem = s.mem := by
  cases h with
  | _ => rfl

/-- Only call and return change `SP` (`10_state.md` R33, R37). -/
theorem Effect.sp_eq (h : Effect s i t) : t.sp = s.sp ∨ (∃ nnn, i = .call nnn) ∨ i = .ret := by
  cases h with
  | calls hsp => exact .inr (.inl ⟨_, rfl⟩)
  | returns hk => exact .inr (.inr rfl)
  | _ => exact .inl rfl

/-- Only call changes an entry (`10_state.md` R37, R39). -/
theorem Effect.stack_eq (h : Effect s i t) : t.stack = s.stack ∨ ∃ nnn, i = .call nnn := by
  cases h with
  | calls hsp => exact .inr ⟨_, rfl⟩
  | _ => exact .inl rfl

/-- No entry but the one at `SP` changes (`10_state.md` R38). -/
theorem Effect.stack_entry_eq (h : Effect s i t) {k : Fin 16} (hk : k.val ≠ s.sp.val) : t.stack[k] = s.stack[k] := by
  cases h with
  | calls hsp => exact (getElem_set_stack s.stack hsp _ k).trans (if_neg hk)
  | _ => rfl

/-- An instruction that completes and does not set the program counter advances it, a skip by 2 or 4
(`10_state.md` R26). -/
theorem Effect.pc_eq (h : Effect s i t) (ht : t.Running) (hi : setsPc i = false) :
    t.pc = s.pc + 2 ∨ (isSkip i = true ∧ t.pc = s.pc + 4) := by
  cases h with
  | overflow | underflow | outOfRange | clearFails | drawFails => cases ht
  | calls | returns | jumps | jumpsOffset => cases hi
  | @skips i c hs =>
    cases c with
    | false => exact .inl rfl
    | true => exact .inr ⟨hs, rfl⟩
  | _ => exact .inl rfl

end Frames

/-- Settles O30, by `Effect.readV_eq`. -/
theorem registersChangeOnlyAtTheDestination : Obligations.RegistersChangeOnlyAtTheDestination :=
  fun _ _ _ h _ hr => (effect_of_exec h).readV_eq hr

/-- Settles O36: each of the three registers has its own frame lemma. -/
theorem controlRegistersChangeOnlyByTheirInstructions : Obligations.ControlRegistersChangeOnlyByTheirInstructions := by
  intro i s t h
  have he := effect_of_exec h
  exact ⟨he.index_eq.resolve_left, he.dt_eq.resolve_left, he.st_eq.resolve_left⟩

/-- Settles O39: `SP` and the entries have their own frame lemmas. -/
theorem onlyCallAndReturnReachTheStack : Obligations.OnlyCallAndReturnReachTheStack := by
  intro i s t h
  have he := effect_of_exec h
  refine ⟨fun hcall hret => ?_, ?_, fun k hk => he.stack_entry_eq hk⟩
  · have hnot : ¬ ∃ nnn, i = .call nnn := fun ⟨nnn, hi⟩ => hcall nnn hi
    exact ⟨he.sp_eq.resolve_right (not_or.mpr ⟨hnot, hret⟩), he.stack_eq.resolve_right hnot⟩
  · rintro rfl
    exact he.stack_eq.resolve_right (by simp)

/-! ### The program counter -/

/-- The advance does not wrap at an address the engine fetches from (`10_state.md` R28). -/
theorem toNat_add_two {a : Word} (h : a.toNat ≤ 0xFFE) : (a + 2).toNat = a.toNat + 2 := by
  bv_omega

/-- Nor does the advance of a taken skip. -/
theorem toNat_add_four {a : Word} (h : a.toNat ≤ 0xFFE) : (a + 4).toNat = a.toNat + 4 := by
  bv_omega

theorem toNat_absoluteTarget (nnn : Addr) : (absoluteTarget nnn).toNat = nnn.toNat :=
  BitVec.toNat_setWidth_of_le (by decide)

/-- The sum of jump-with-offset is exact (`10_state.md` R28). -/
theorem toNat_offsetTarget (nnn : Addr) (s : State) : (offsetTarget nnn s).toNat = nnn.toNat + (s.readV 0).toNat := by
  rw [offsetTarget, BitVec.toNat_add, BitVec.toNat_setWidth_of_le (by decide), BitVec.toNat_setWidth_of_le (by decide)]
  omega

/-- Settles O23: the two advances of `Effect.pc_eq` are exact below 0xFFF. -/
theorem sequentialAdvanceIsExact : Obligations.SequentialAdvanceIsExact := by
  intro i s t hpc _ h ht hi
  obtain hadv | ⟨hskip, hadv⟩ := (effect_of_exec h).pc_eq ht hi
  · rw [hadv, toNat_add_two hpc]
    exact ⟨fun _ => rfl, fun _ => .inl rfl⟩
  · rw [hadv, toNat_add_four hpc]
    exact ⟨fun hno => absurd (hno.symm.trans hskip) (by decide), fun _ => .inr rfl⟩

/-! ### The invariant of R48 along instructions, transitions and runs -/

section Invariant

variable {s t : State} {i : Instr}

/-- The program counter after an instruction is one of: unchanged, advanced, a jump target, a live stack entry. -/
theorem Effect.pc_le (h : Effect s i t) (hs : s.Inv) (hpc : s.pc.toNat ≤ 0xFFE) : t.pc.toNat ≤ 0x10FE := by
  have hadv : (s.pc + 2).toNat ≤ 0x10FE := by rw [toNat_add_two hpc]; omega
  have habs (nnn : Addr) : (absoluteTarget nnn).toNat ≤ 0x10FE := by rw [toNat_absoluteTarget]; omega
  cases h with
  | overflow | underflow | outOfRange | clearFails | drawFails => exact hs.pcBound
  | @returns k hk => exact (hs.stackBound k (by omega)).trans (by decide)
  | calls | jumps => exact habs _
  | @jumpsOffset nnn =>
    have hsum : (offsetTarget nnn s).toNat ≤ 0x10FE := by rw [toNat_offsetTarget]; omega
    exact hsum
  | @skips i c hi =>
    cases c with
    | false => exact hadv
    | true =>
      have hskip : (s.pc + 4).toNat ≤ 0x10FE := by rw [toNat_add_four hpc]; omega
      exact hskip
  | _ => exact hadv

/-- The live entries after an instruction are live entries before it, or the one call pushes. -/
theorem Effect.stack_le (h : Effect s i t) (hs : s.Inv) (hpc : s.pc.toNat ≤ 0xFFE) (k : Fin 16)
    (hk : k.val < t.sp.val) : t.stack[k].toNat ≤ 0x1000 := by
  cases h with
  | calls hsp =>
    have hk' : k.val < s.sp.val + 1 := hk
    rw [State.setPc_stack, getElem_set_stack]
    split
    · rw [returnAddress, toNat_add_two hpc]
      omega
    · exact hs.stackBound k (by omega)
  | @returns j hj =>
    have hk' : k.val < j.val := hk
    exact hs.stackBound k (by omega)
  | _ => exact hs.stackBound k hk

theorem Effect.inv (h : Effect s i t) (hs : s.Inv) (hpc : s.pc.toNat ≤ 0xFFE) : t.Inv :=
  ⟨h.pc_le hs hpc, h.stack_le hs hpc, h.mem_eq ▸ hs.memWf⟩

/-- Everything an engine step can do: raise the error of its front, or execute what it fetched below 0xFFF. -/
theorem engineStep_eq_next (h : engineStep s = .next t) :
    (∃ e, fetchDecode s = .error e ∧ t = s.setFaulted e) ∨
    ∃ i, s.pc.toNat ≤ 0xFFE ∧ fetchDecode s = .ok i ∧ exec i s = .next t := by
  unfold engineStep at h
  obtain ⟨_, hf⟩ | ⟨_, _, hf⟩ | ⟨i, hpc, _, hf⟩ := fetchDecode_cases s <;> rw [hf] at h
  · exact .inl ⟨_, hf, raise_eq_next h⟩
  · exact .inl ⟨_, hf, raise_eq_next h⟩
  · exact .inr ⟨i, hpc, hf, h⟩

/-- The invariant speaks of `pc`, `SP`, the entries and memory alone. -/
theorem State.Inv.congr (hs : s.Inv) (hpc : t.pc = s.pc) (hsp : t.sp = s.sp) (hstack : t.stack = s.stack)
    (hmem : t.mem = s.mem) : t.Inv := by
  refine ⟨hpc ▸ hs.pcBound, ?_, hmem ▸ hs.memWf⟩
  rw [hsp, hstack]
  exact hs.stackBound

theorem engineStep_inv (hs : s.Inv) (h : engineStep s = .next t) : t.Inv := by
  obtain ⟨e, _, rfl⟩ | ⟨i, hpc, _, hi⟩ := engineStep_eq_next h
  · exact hs.congr rfl rfl rfl rfl
  · exact (effect_of_exec hi).inv hs hpc

theorem transition_inv {tr : Transition} (hs : s.Inv) (h : transition tr s = .next t) : t.Inv := by
  obtain ⟨_, ⟨_, h⟩ | ⟨_, rfl⟩⟩ := transition_eq_next h
  · exact engineStep_inv hs h
  · exact hs.congr rfl rfl rfl rfl

/-- What every transition keeps, every run keeps. -/
theorem runSchedule_keeps {P : State → Prop}
    (hP : ∀ {tr : Transition} {u v : State}, P u → transition tr u = .next v → P v) {l : List Transition}
    (hs : P s) (h : runSchedule l s = .next t) : P t := by
  induction l generalizing s with
  | nil =>
    cases h
    exact hs
  | cons tr l ih =>
    rw [runSchedule] at h
    cases htr : transition tr s with
    | next u =>
      rw [htr] at h
      exact ih (hP hs htr) h
    | fault r => simp [htr] at h
    | refused r => simp [htr] at h

end Invariant

/-- Settles O50: the invariant does not speak of the schedule, and every transition keeps it. -/
theorem stepKeepsTheInvariant : Obligations.StepKeepsTheInvariant := by
  intro s t hs h
  have htaken : s.takeTransition.Inv := hs.congr rfl rfl rfl rfl
  exact transition_inv htaken h

/-- Settles O12: taking a transition off the schedule leaves the run status. -/
theorem faultedSessionHasNoTransition : Obligations.FaultedSessionHasNoTransition :=
  fun s _ h => ⟨fun tr => transition_of_faulted tr h, transition_of_faulted (s := s.takeTransition) _ h⟩

/-! ### Reset and load -/

/-- The font's bytes stand at address 0 (`10_state.md` R43). -/
theorem hostReset_read {font : List Byte} (hf : font.length = 80) (s : State) (a : Nat) :
    Memory.read (hostReset font s).mem a = font[a]?.getD 0 :=
  State.resetWith_read hf a

theorem hostReset_readV (font : List Byte) (s : State) (x : Nibble) : (hostReset font s).readV x = 0 :=
  Vector.getElem_replicate x.isLt

theorem hostReset_stack (font : List Byte) (s : State) (k : Fin 16) : (hostReset font s).stack[k] = 0 :=
  Vector.getElem_replicate k.isLt

/-- Settles O44, field by field of the reset table. -/
theorem resetGivesTheResetTable : Obligations.ResetGivesTheResetTable := by
  intro font s hf
  refine ⟨hostReset_readV font s, rfl, rfl, rfl, hostReset_stack font s, rfl, rfl, fun a ha => ?_,
    fun a ha _ => ?_, rfl⟩
  · rw [hostReset_read hf, List.getElem?_eq_getElem (by omega), Option.getD_some]
  · rw [hostReset_read hf, List.getElem?_eq_none (by omega), Option.getD_none]

/-- Writing the default font lists no byte, for it is what an unlisted byte reads as. -/
theorem reset_eq_hostReset : State.reset = hostReset Config.defaultFont State.reset := by
  decide

/-- Settles O45: `State.reset` reads as the reset state it is equal to. -/
theorem resetStateHasTheDefaultFont : Obligations.ResetStateHasTheDefaultFont := by
  have hfont : Config.defaultFont.length = 80 := rfl
  refine ⟨hfont, reset_eq_hostReset, fun a ha => ?_⟩
  rw [reset_eq_hostReset, hostReset_read hfont, List.getElem?_eq_getElem (by omega), Option.getD_some]

/-- A reset leaves the invariant: no entry is live, and the font lies inside memory (`10_state.md` R47). -/
theorem hostReset_inv (font : List Byte) (s : State) : (hostReset font s).Inv where
  pcBound := (by decide : 0x200 ≤ 0x10FE)
  stackBound _ hk := absurd hk (Nat.not_lt_zero _)
  memWf := Memory.writeBytes_wf rfl (by have := List.length_take_le 80 font; simp only [memSize]; omega)

/-- Settles O49, by `hostReset_inv`. -/
theorem resetMeetsTheInvariant : Obligations.ResetMeetsTheInvariant := by
  refine ⟨?_, fun font s _ => hostReset_inv font s⟩
  rw [reset_eq_hostReset]
  exact hostReset_inv _ _

/-- Everything a load can do (`70_reset_and_hazards.md` R191). -/
theorem loadProgram_eq_next {bytes : List Byte} {s t : State} (h : loadProgram bytes s = .next t) :
    freshlyReset s = true ∧
    ((bytes.length ≤ maxProgram ∧ t = { s with mem := Memory.writeBytes s.mem 0x200 bytes, loaded := true }) ∨
    (maxProgram < bytes.length ∧ t = s.setFaulted .programTooLarge)) := by
  unfold loadProgram at h
  split at h
  · next hfresh =>
    split at h
    · next hlen => exact ⟨hfresh, .inr ⟨hlen, raise_eq_next h⟩⟩
    · next hlen =>
      cases h
      exact ⟨hfresh, .inl ⟨Nat.le_of_not_lt hlen, rfl⟩⟩
  · cases h

/-- A load keeps the invariant: the program area ends where memory does. -/
theorem loadProgram_inv {bytes : List Byte} {s t : State} (hs : s.Inv) (h : loadProgram bytes s = .next t) : t.Inv := by
  obtain ⟨_, ⟨hlen, rfl⟩ | ⟨_, rfl⟩⟩ := loadProgram_eq_next h
  · have hfits : 0x200 + bytes.length ≤ memSize := by
      simp only [memSize, maxProgram] at hlen ⊢
      omega
    exact ⟨hs.pcBound, hs.stackBound, Memory.writeBytes_wf hs.memWf hfits⟩
  · exact hs.congr rfl rfl rfl rfl

/-- Settles O51: reset gives the invariant, the load and every transition keep it. -/
theorem reachableStatesAreBounded : Obligations.ReachableStatesAreBounded := by
  intro font bytes l s₀ s t _ hload hrun
  have ht : t.Inv := runSchedule_keeps transition_inv (loadProgram_inv (hostReset_inv font s₀) hload) hrun
  exact ⟨by omega, by omega, ht.stackBound, ht.pcBound⟩

end Sys2Proof.Machine
end

section
/-! SUPPORT. Memory as the fetch reads it and as a run of transitions leaves it (`20_memory.md`). -/

namespace Sys2Proof.Machine

/-! ### A word placed at the program counter -/

/-- A word stored high byte first is what `Fetch16` reads back, at any address both bytes of which lie in memory
(`20_memory.md` R50, R52). -/
theorem Memory.fetch16_writeBytes {m : Memory} {a : Nat} (w : Word) (hm : Memory.wf m = true) (ha : a ≤ 0xFFE) :
    Memory.fetch16 (Memory.writeBytes m a [highByte w, lowByte w]) a = w := by
  have hfits : a + [highByte w, lowByte w].length ≤ memSize := by
    simp only [List.length_cons, List.length_nil, memSize]
    omega
  have hhigh := Memory.read_writeBytes_inside (k := 0) hm hfits Nat.zero_lt_two
  have hlow := Memory.read_writeBytes_inside (k := 1) hm hfits Nat.one_lt_two
  rw [Memory.fetch16, hlow]
  exact (congrArg (· ++ lowByte w) hhigh).trans (joinBytes_high_low w)

theorem fetchWord_placeWord {s : State} (w : Word) (hm : Memory.wf s.mem = true) (hpc : s.pc.toNat ≤ 0xFFE) :
    fetchWord (placeWord s w) = .ok w := by
  rw [placeWord, if_neg (Nat.not_lt.mpr hpc), fetchWord_of_le]
  · exact congrArg Except.ok (Memory.fetch16_writeBytes w hm hpc)
  · exact hpc

/-- The fetch reads `pc` and memory alone, which giving the engine the turn leaves. -/
@[simp] theorem fetchWord_giveEngineTurn (s : State) : fetchWord (giveEngineTurn s) = fetchWord s := rfl

theorem giveEngineTurn_nextTransition (s : State) : (giveEngineTurn s).nextTransition = .step := by
  unfold giveEngineTurn
  split <;> exact State.nextTransition_cons rfl

theorem giveEngineTurn_live (s : State) : (giveEngineTurn s).Live := ⟨rfl, rfl⟩

/-- Settles O9, by `fetchWord_placeWord` and what `giveEngineTurn` sets. -/
theorem placedWordIsTheNextFetch : Obligations.PlacedWordIsTheNextFetch := by
  intro s nbits w hm hpc
  refine ⟨?_, giveEngineTurn_nextTransition _, giveEngineTurn_live _⟩
  rw [State.withFetchWord, fetchWord_giveEngineTurn, fetchWord_placeWord _ hm hpc]

/-! ### Memory along steps, ticks and runs -/

section Constancy

variable {s t : State}

/-- No engine step writes memory, whether it completes or raises an error (`20_memory.md` R65). -/
theorem engineStep_mem_eq (h : engineStep s = .next t) : t.mem = s.mem := by
  obtain ⟨e, _, rfl⟩ | ⟨i, _, _, hi⟩ := engineStep_eq_next h
  · exact State.setFaulted_mem s e
  · exact (effect_of_exec hi).mem_eq

theorem transition_mem_eq {tr : Transition} (h : transition tr s = .next t) : t.mem = s.mem := by
  obtain ⟨_, ⟨_, hstep⟩ | ⟨_, rfl⟩⟩ := transition_eq_next h
  · exact engineStep_mem_eq hstep
  · exact tick_mem s

/-- Memory is constant along every run (`20_memory.md` R62). -/
theorem runSchedule_mem_eq {l : List Transition} (h : runSchedule l s = .next t) : t.mem = s.mem :=
  runSchedule_keeps (P := fun u => u.mem = s.mem) (fun hu htr => (transition_mem_eq htr).trans hu) rfl h

end Constancy

/-- Settles O40: memory itself, and so every reading of it, is kept by an instruction and by a run. -/
theorem memoryIsConstantDuringASession : Obligations.MemoryIsConstantDuringASession :=
  ⟨fun _ _ _ h => (effect_of_exec h).mem_eq,
    fun _ _ _ h a => congrArg (fun m => Memory.read m a) (runSchedule_mem_eq h)⟩

end Sys2Proof.Machine
end

section
/-! SUPPORT. The decoder, the encoder and the opcode map (`30_encoding.md`): a word decodes to an instruction exactly
when the instruction is assembled to it (`decodeWord_eq_some_iff`), and a row of the map selects only words assembled
from its own instruction (`exists_encodeWord_of_selects`). -/

namespace Sys2Proof

open Sys2Proof.Laws.RowSelects (nibble_and_ones)

/-! ### A word is assembled from its own fields -/

section Fields

variable {c : Nibble} {w : Word}

/-! Per format: the fields put a word together again; a fixed low nibble or byte stands for the field it equals. -/

theorem assembleNNN_fields (h : fieldClass w = c) : assembleNNN c (fieldNNN w) = w := by
  subst h
  exact (BitVec.extractLsb'_append_extractLsb'_eq_extractLsb' rfl).trans BitVec.extractLsb'_eq_self

theorem assembleXKK_fields (h : fieldClass w = c) : assembleXKK c (fieldX w) (fieldKK w) = w := by
  subst h
  have hcx : fieldClass w ++ fieldX w = w.extractLsb' 8 8 := BitVec.extractLsb'_append_extractLsb'_eq_extractLsb' rfl
  rw [assembleXKK, hcx]
  exact (BitVec.extractLsb'_append_extractLsb'_eq_extractLsb' rfl).trans BitVec.extractLsb'_eq_self

theorem assembleXYN_fields (h : fieldClass w = c) : assembleXYN c (fieldX w) (fieldY w) (fieldN w) = w :=
  word_ext_of_fields ((fieldClass_assembleXYN ..).trans h.symm) (fieldX_assembleXYN ..) (fieldY_assembleXYN ..)
    (fieldN_assembleXYN ..)

theorem assembleXYN_sub {n : Nibble} (h : fieldClass w = c) (hn : fieldN w = n) :
    assembleXYN c (fieldX w) (fieldY w) n = w :=
  hn ▸ assembleXYN_fields h

theorem assembleXKK_low {kk : Byte} (h : fieldClass w = c) (hkk : fieldKK w = kk) : assembleXKK c (fieldX w) kk = w :=
  hkk ▸ assembleXKK_fields h

end Fields

/-! ### The round trip -/

/-- Every instruction is read back from the word it is assembled to, format by format. -/
theorem decodeWord_encodeWord (i : Instr) : decodeWord (encodeWord i) = some i := by
  cases i with
  | clearScreen | ret => rfl
  | jump nnn | call nnn | setIndex nnn | jumpOffset nnn =>
    rw [encodeWord, decodeWord, fieldClass_assembleNNN, fieldNNN_assembleNNN]
    rfl
  | skipEqImm x kk | skipNeImm x kk | loadImm x kk | addImm x kk | randomAnd x kk | setDelay x | setSound x
  | addIndex x =>
    rw [encodeWord, decodeWord, fieldClass_assembleXKK, fieldX_assembleXKK, fieldKK_assembleXKK]
    rfl
  | skipEqReg x y | skipNeReg x y | copy x y | bitOr x y | bitAnd x y | bitXor x y | drawSprite x y n =>
    rw [encodeWord, decodeWord, fieldClass_assembleXYN, fieldX_assembleXYN, fieldY_assembleXYN, fieldN_assembleXYN]
    rfl

/-- Every arm of the decision tree keeps all the bits of the word. -/
theorem encodeWord_of_decodeWord {w : Word} {i : Instr} (h : decodeWord w = some i) : encodeWord i = w := by
  unfold decodeWord at h
  split at h
  -- class 0: two fixed words
  case h_1 => split_ifs at h with h1 h2 <;> cases h <;> [exact h1.symm; exact h2.symm]
  -- classes 1, 2, A, B: format NNN
  case h_2 hc | h_3 hc | h_11 hc | h_12 hc =>
    cases h
    exact assembleNNN_fields hc
  -- classes 3, 4, 6, 7, C: format XKK
  case h_4 hc | h_5 hc | h_7 hc | h_8 hc | h_13 hc =>
    cases h
    exact assembleXKK_fields hc
  -- classes 5, 9 and 8: format XY with a fixed low nibble
  case h_6 hc | h_10 hc =>
    split_ifs at h with hn
    cases h
    exact assembleXYN_sub hc hn
  case h_9 hc => split at h <;> cases h <;> exact assembleXYN_sub hc ‹_›
  -- class D: format XYN
  case h_14 hc =>
    cases h
    exact assembleXYN_fields hc
  -- class F: a fixed low byte
  case h_15 hc => split at h <;> cases h <;> exact assembleXKK_low hc ‹_›
  -- class E: Unknown
  case h_16 => cases h

/-- A word decodes to an instruction exactly when the instruction is assembled to the word. -/
theorem decodeWord_eq_some_iff {w : Word} {i : Instr} : decodeWord w = some i ↔ encodeWord i = w :=
  ⟨encodeWord_of_decodeWord, fun h => h ▸ decodeWord_encodeWord i⟩

theorem decode_of_decodeWord {hi lo : Byte} {i : Instr} (rest : List Byte)
    (h : decodeWord (joinBytes hi lo) = some i) : decode (hi :: lo :: rest) = .ok (i, rest) := by
  rw [decode, h]

/-- The inversion of `decode`: two bytes decode only as the word they form does. -/
theorem decodeWord_of_decode {hi lo : Byte} {i : Instr} {rest left : List Byte}
    (h : decode (hi :: lo :: rest) = .ok (i, left)) : decodeWord (joinBytes hi lo) = some i := by
  rw [decode] at h
  cases hd : decodeWord (joinBytes hi lo) <;> rw [hd] at h <;> cases h
  rfl

/-- Settles O1: the two bytes of an instruction form its word, which is read back. -/
theorem decodeOfEncodeIsIdentity : Obligations.DecodeOfEncodeIsIdentity := by
  intro i rest _
  apply decode_of_decodeWord
  rw [joinBytes_high_low, decodeWord_encodeWord]

/-- Settles O2, by the arms of the decision tree. -/
theorem encodeOfDecodeIsIdentity : Obligations.EncodeOfDecodeIsIdentity :=
  fun _ _ h => encodeWord_of_decodeWord h

/-! ### The opcode map -/

section Rows

variable {m : String} {p k w : Word} {c : Nibble}

theorem and_of_selects (h : (OpcodeRow.mk m p k).selects w = true) : w &&& k = p :=
  of_decide_eq_true h

/-! A nibble or byte that the mask covers is the pattern's in every word the row selects. -/

theorem fieldClass_of_selects (hk : fieldClass k = 0xF) (h : (OpcodeRow.mk m p k).selects w = true) :
    fieldClass w = fieldClass p := by
  rw [← and_of_selects h, fieldClass_and, nibble_and_ones hk]

theorem fieldN_of_selects (hk : fieldN k = 0xF) (h : (OpcodeRow.mk m p k).selects w = true) :
    fieldN w = fieldN p := by
  rw [← and_of_selects h, fieldN_and, nibble_and_ones hk]

theorem fieldKK_of_selects (hk : fieldKK k = BitVec.allOnes 8) (h : (OpcodeRow.mk m p k).selects w = true) :
    fieldKK w = fieldKK p := by
  rw [← and_of_selects h, fieldKK, fieldKK, BitVec.extractLsb'_and]
  exact ((congrArg (fieldKK w &&& ·) hk).trans BitVec.and_allOnes).symm

/-! Per mask and format: the words a row selects are those assembled with its fixed fields. -/

theorem assembleNNN_of_selects (hc : fieldClass p = c) (h : (OpcodeRow.mk m p 0xF000).selects w = true) :
    assembleNNN c (fieldNNN w) = w :=
  assembleNNN_fields ((fieldClass_of_selects rfl h).trans hc)

theorem assembleXKK_of_selects (hc : fieldClass p = c) (h : (OpcodeRow.mk m p 0xF000).selects w = true) :
    assembleXKK c (fieldX w) (fieldKK w) = w :=
  assembleXKK_fields ((fieldClass_of_selects rfl h).trans hc)

theorem assembleXYN_of_selects (hc : fieldClass p = c) (h : (OpcodeRow.mk m p 0xF000).selects w = true) :
    assembleXYN c (fieldX w) (fieldY w) (fieldN w) = w :=
  assembleXYN_fields ((fieldClass_of_selects rfl h).trans hc)

theorem assembleXYN_sub_of_selects {n : Nibble} (hc : fieldClass p = c) (hn : fieldN p = n)
    (h : (OpcodeRow.mk m p 0xF00F).selects w = true) : assembleXYN c (fieldX w) (fieldY w) n = w :=
  assembleXYN_sub ((fieldClass_of_selects rfl h).trans hc) ((fieldN_of_selects rfl h).trans hn)

theorem assembleXKK_low_of_selects {kk : Byte} (hc : fieldClass p = c) (hkk : fieldKK p = kk)
    (h : (OpcodeRow.mk m p 0xF0FF).selects w = true) : assembleXKK c (fieldX w) kk = w :=
  assembleXKK_low ((fieldClass_of_selects rfl h).trans hc) ((fieldKK_of_selects rfl h).trans hkk)

theorem pattern_of_selects (h : (OpcodeRow.mk m p 0xFFFF).selects w = true) : p = w :=
  (and_of_selects h).symm.trans BitVec.and_allOnes

end Rows

/-- A row selects only words assembled from its instruction. -/
theorem exists_encodeWord_of_selects {r : OpcodeRow} {w : Word} (hr : r ∈ opcodeMap) (h : r.selects w = true) :
    ∃ i : Instr, i.row = r ∧ encodeWord i = w := by
  revert r
  simp only [opcodeMap, List.cons_append, List.nil_append, List.forall_mem_cons]
  exact ⟨fun h => ⟨.clearScreen, rfl, pattern_of_selects h⟩,
    fun h => ⟨.ret, rfl, pattern_of_selects h⟩,
    fun h => ⟨.jump _, rfl, assembleNNN_of_selects rfl h⟩,
    fun h => ⟨.call _, rfl, assembleNNN_of_selects rfl h⟩,
    fun h => ⟨.skipEqImm _ _, rfl, assembleXKK_of_selects rfl h⟩,
    fun h => ⟨.skipNeImm _ _, rfl, assembleXKK_of_selects rfl h⟩,
    fun h => ⟨.skipEqReg _ _, rfl, assembleXYN_sub_of_selects rfl rfl h⟩,
    fun h => ⟨.loadImm _ _, rfl, assembleXKK_of_selects rfl h⟩,
    fun h => ⟨.addImm _ _, rfl, assembleXKK_of_selects rfl h⟩,
    fun h => ⟨.copy _ _, rfl, assembleXYN_sub_of_selects rfl rfl h⟩,
    fun h => ⟨.bitOr _ _, rfl, assembleXYN_sub_of_selects rfl rfl h⟩,
    fun h => ⟨.bitAnd _ _, rfl, assembleXYN_sub_of_selects rfl rfl h⟩,
    fun h => ⟨.bitXor _ _, rfl, assembleXYN_sub_of_selects rfl rfl h⟩,
    fun h => ⟨.skipNeReg _ _, rfl, assembleXYN_sub_of_selects rfl rfl h⟩,
    fun h => ⟨.setIndex _, rfl, assembleNNN_of_selects rfl h⟩,
    fun h => ⟨.jumpOffset _, rfl, assembleNNN_of_selects rfl h⟩,
    fun h => ⟨.randomAnd _ _, rfl, assembleXKK_of_selects rfl h⟩,
    fun h => ⟨.drawSprite _ _ _, rfl, assembleXYN_of_selects rfl h⟩,
    fun h => ⟨.setDelay _, rfl, assembleXKK_low_of_selects rfl rfl h⟩,
    fun h => ⟨.setSound _, rfl, assembleXKK_low_of_selects rfl rfl h⟩,
    fun h => ⟨.addIndex _, rfl, assembleXKK_low_of_selects rfl rfl h⟩,
    fun _ hr => absurd hr List.not_mem_nil⟩

/-- Every instruction's row is in the map and selects the word the instruction is assembled to. -/
theorem row_selects_encodeWord (i : Instr) : i.row ∈ opcodeMap ∧ i.row.selects (encodeWord i) = true := by
  cases i with
  | clearScreen => exact Laws.RowSelects.clearScreen.2
  | ret => exact Laws.RowSelects.ret.2
  | jump nnn => exact (Laws.RowSelects.jump nnn).2
  | call nnn => exact (Laws.RowSelects.call nnn).2
  | skipEqImm x kk => exact (Laws.RowSelects.skipEqImm x kk).2
  | skipNeImm x kk => exact (Laws.RowSelects.skipNeImm x kk).2
  | skipEqReg x y => exact (Laws.RowSelects.skipEqReg x y).2
  | loadImm x kk => exact (Laws.RowSelects.loadImm x kk).2
  | addImm x kk => exact (Laws.RowSelects.addImm x kk).2
  | copy x y => exact (Laws.RowSelects.copy x y).2
  | bitOr x y => exact (Laws.RowSelects.bitOr x y).2
  | bitAnd x y => exact (Laws.RowSelects.bitAnd x y).2
  | bitXor x y => exact (Laws.RowSelects.bitXor x y).2
  | skipNeReg x y => exact (Laws.RowSelects.skipNeReg x y).2
  | setIndex nnn => exact (Laws.RowSelects.setIndex nnn).2
  | jumpOffset nnn => exact (Laws.RowSelects.jumpOffset nnn).2
  | randomAnd x kk => exact (Laws.RowSelects.randomAnd x kk).2
  | drawSprite x y n => exact (Laws.RowSelects.drawSprite x y n).2
  | setDelay x => exact (Laws.RowSelects.setDelay x).2
  | setSound x => exact (Laws.RowSelects.setSound x).2
  | addIndex x => exact (Laws.RowSelects.addIndex x).2

/-- The mapped words are those some instruction is assembled to. -/
theorem wordMapped_iff_exists_encodeWord {w : Word} : wordMapped w = true ↔ ∃ i, encodeWord i = w := by
  rw [wordMapped, List.any_eq_true]
  constructor
  · rintro ⟨r, hr, h⟩
    obtain ⟨i, -, hi⟩ := exists_encodeWord_of_selects hr h
    exact ⟨i, hi⟩
  · rintro ⟨i, rfl⟩
    exact ⟨i.row, row_selects_encodeWord i⟩

/-- Settles O3: an instruction's row selects its word, and mapped, assembled and decoded words are the same. -/
theorem decoderFollowsTheOpcodeMap : Obligations.DecoderFollowsTheOpcodeMap := by
  constructor
  · intro w i h
    rw [← encodeWord_of_decodeWord h]
    exact row_selects_encodeWord i
  · intro w
    rw [Option.eq_none_iff_forall_ne_some, ← Bool.not_eq_true, wordMapped_iff_exists_encodeWord, not_exists]
    exact forall_congr' fun i => not_congr decodeWord_eq_some_iff

/-- Settles O4: two rows that select a word select it as one instruction's, and so are that instruction's row. -/
theorem opcodeRowsAreDisjoint : Obligations.OpcodeRowsAreDisjoint := by
  refine ⟨rfl, fun w r q hr hq hrw hqw => ?_⟩
  obtain ⟨i, rfl, hi⟩ := exists_encodeWord_of_selects hr hrw
  obtain ⟨j, rfl, hj⟩ := exists_encodeWord_of_selects hq hqw
  have hsome : some i = some j := (decodeWord_eq_some_iff.mpr hi).symm.trans (decodeWord_eq_some_iff.mpr hj)
  rw [Option.some.inj hsome]

/-- Settles O5, class by class of the decision tree: classes 0, 5, 9, 8, F and E, and last those that are all mapped. -/
theorem unmappedWordsByClass : Obligations.UnmappedWordsByClass := by
  intro w
  unfold decodeWord
  split
  case h_1 hc => simp [hc, ite_eq_iff]
  case h_6 hc | h_10 hc => simp [hc]
  case h_9 hc =>
    split
    case h_5 h0 h1 h2 h3 =>
      simp only [imp_false] at h0 h1 h2 h3
      have hn : 4 ≤ (fieldN w).toNat := by bv_omega
      simp [hc, hn]
    all_goals next hn => simp [hc, hn]
  case h_15 hc =>
    split
    case h_4 h15 h18 h1E => simp [hc, imp_false.mp h15, imp_false.mp h18, imp_false.mp h1E]
    all_goals next hkk => simp [hc, hkk]
  case h_16 =>
    have hE : fieldClass w = 0xE := by
      simp only [imp_false] at *
      bv_omega
    simp [hE]
  all_goals next hc => simp [hc]

/-! ### Words as sums of their fields -/

theorem toNat_append_eq_add {k l : Nat} (u : BitVec k) (v : BitVec l) :
    (u ++ v).toNat = u.toNat * 2 ^ l + v.toNat := by
  rw [BitVec.toNat_append, ← Nat.shiftLeft_add_eq_or_of_lt v.isLt, Nat.shiftLeft_eq]

/-- Two bytes form the word that puts the first at weight 256 (`20_memory.md` R50). -/
theorem toNat_joinBytes (hi lo : Byte) : (joinBytes hi lo).toNat = hi.toNat * 256 + lo.toNat :=
  toNat_append_eq_add hi lo

/-- Settles O6: an appended field of `k` bits weighs what stands above it by `2 ^ k`. -/
theorem wordsAreAssembledFromTheirFields : Obligations.WordsAreAssembledFromTheirFields := by
  refine ⟨fun c nnn => toNat_append_eq_add c nnn, fun c x kk => ?_, fun c x y n => ?_, fun i => ?_⟩
  · rw [assembleXKK, toNat_append_eq_add, toNat_append_eq_add]
    omega
  · rw [assembleXYN, toNat_append_eq_add, toNat_append_eq_add, toNat_append_eq_add]
    omega
  · exact ⟨_, _, rfl, by rw [← toNat_joinBytes, joinBytes_high_low]⟩

/-- Settles O7: the decoder is run on each of the fourteen words. -/
theorem wordsOfEachFamilyDecodeAsTheMapSays : Obligations.WordsOfEachFamilyDecodeAsTheMapSays := by
  unfold Obligations.WordsOfEachFamilyDecodeAsTheMapSays
  decide

end Sys2Proof

namespace Sys2Proof.Machine

/-! ### The step -/

theorem fetchDecode_of_decodeWord {s : State} {i : Instr} (hpc : s.pc.toNat ≤ 0xFFE)
    (h : decodeWord (Memory.fetch16 s.mem s.pc.toNat) = some i) : fetchDecode s = .ok i := by
  simp only [fetchDecode, fetchWord_of_le hpc, decodeFetched, h]

theorem engineStep_of_fetchDecode {s : State} {i : Instr} (h : fetchDecode s = .ok i) : engineStep s = exec i s := by
  rw [engineStep, h]

/-- Settles O8: taking the transition off the schedule leaves `pc`, memory and the session live, so the engine fetches
and decodes there what stands at `pc`. -/
theorem stepRunsTheDecodedInstruction : Obligations.StepRunsTheDecodedInstruction := by
  intro s i hlive hnext hpc _ hbytes
  have hfetch : fetchDecode s.takeTransition = .ok i := fetchDecode_of_decodeWord hpc (decodeWord_of_decode hbytes)
  have htaken : s.takeTransition.Live := hlive
  rw [step, hnext, transition_step htaken, engineStep_of_fetchDecode hfetch]

end Sys2Proof.Machine
end

section
/-! SUPPORT. Control flow (`40_control_flow.md`): each outcome of return and call as one equation, and that a run which
never pops an entry keeps it. -/

namespace Sys2Proof.Machine

/-! ### What return and call answer -/

section Outcomes

variable {s : State}

/-- A return with a nonempty stack goes to the entry below `SP` and leaves it there (`40_control_flow.md` R90). -/
theorem exec_ret_of_succ {k : Fin 16} (h : s.sp.val = k.val + 1) :
    exec .ret s = .next (State.setPc { s with sp := k.castSucc } s.stack[k]) := by
  obtain ⟨n, hn⟩ := k
  obtain rfl : s.sp.val - 1 = n := Nat.sub_eq_of_eq_add h
  rw [exec, execRet, pop_of_pos (by omega)]
  rfl

theorem exec_ret_of_empty (h : s.sp.val = 0) : exec .ret s = .next (s.setFaulted .stackUnderflow) := by
  rw [exec, execRet, pop_of_empty h]
  rfl

/-- A call with a free entry stores the return address at `SP` and goes to its target (`40_control_flow.md` R92). -/
theorem exec_call_of_lt (nnn : Addr) (h : s.sp.val < 16) : exec (.call nnn) s = .next (State.setPc
    { s with stack := s.stack.set s.sp.val (returnAddress s) h, sp := ⟨s.sp.val + 1, Nat.succ_lt_succ h⟩ }
    (absoluteTarget nnn)) := by
  rw [exec, execCall, push_of_lt h]

theorem exec_call_of_full (nnn : Addr) (h : s.sp.val = 16) :
    exec (.call nnn) s = .next (s.setFaulted .stackOverflow) := by
  rw [exec, execCall, push_of_full h]
  rfl

end Outcomes

/-! ### What they leave unchanged -/

/-- Setting the program counter changes nothing else. -/
theorem setPc_sameButPc (s : State) (a : Word) : SameButPc s (s.setPc a) :=
  ⟨fun _ => rfl, rfl, ⟨rfl, rfl⟩, ⟨rfl, rfl⟩, fun _ => rfl, ⟨rfl, rfl, rfl⟩, ⟨rfl, rfl⟩, rfl, rfl, rfl, rfl⟩

/-- The frame of call and return, whose only destinations are the call stack and the program counter. -/
theorem setPc_setStack_frame (s : State) (entries : Vector Word 16) (p : Fin 17) (a : Word) :
    let t := State.setPc { s with stack := entries, sp := p } a
    SameRegisters s t ∧ t.index = s.index ∧ SameTimers s t ∧ SameMemory s t ∧ SameDisplay s t ∧ SameRandom s t ∧
      SameSession s t :=
  ⟨fun _ => rfl, rfl, ⟨rfl, rfl⟩, fun _ => rfl, ⟨rfl, rfl, rfl⟩, ⟨rfl, rfl⟩, rfl, rfl, rfl, rfl⟩

/-! ### An entry along a run -/

section Runs

variable {s t u : State} {k : Fin 16} {d : Nat} {tr : Transition} {l : List Transition}

/-- No entry but the one at `SP` changes in a step, whether it completes or raises an error. -/
theorem engineStep_stack_entry_eq (h : engineStep s = .next t) (hk : k.val ≠ s.sp.val) : t.stack[k] = s.stack[k] := by
  obtain ⟨e, _, rfl⟩ | ⟨i, _, _, hi⟩ := engineStep_eq_next h
  · rw [State.setFaulted_stack]
  · exact (effect_of_exec hi).stack_entry_eq hk

theorem transition_stack_entry_eq (h : transition tr s = .next t) (hk : k.val ≠ s.sp.val) :
    t.stack[k] = s.stack[k] := by
  obtain ⟨_, ⟨_, hstep⟩ | ⟨_, rfl⟩⟩ := transition_eq_next h
  · exact engineStep_stack_entry_eq hstep hk
  · rw [tick_stack]

/-- A run's first transition answers a state, from which the rest runs. -/
theorem runSchedule_cons_eq_next (h : runSchedule (tr :: l) s = .next t) :
    ∃ u, transition tr s = .next u ∧ runSchedule l u = .next t := by
  rw [runSchedule] at h
  cases htr : transition tr s with
  | next u => exact ⟨u, rfl, by rwa [htr] at h⟩
  | fault r => simp [htr] at h
  | refused r => simp [htr] at h

theorem StaysAbove.le_sp (h : StaysAbove d l s) : d ≤ s.sp.val :=
  h 0 s rfl

theorem StaysAbove.tail (h : StaysAbove d (tr :: l) s) (hu : transition tr s = .next u) : StaysAbove d l u := by
  intro n v hv
  have hrun : runSchedule ((tr :: l).take (n + 1)) s = .next v := by
    rw [List.take_succ_cons, runSchedule, hu]
    exact hv
  exact h (n + 1) v hrun

/-- An entry is kept along a run in which `SP` stays above it, for only the entry at `SP` is ever written. -/
theorem runSchedule_stack_entry_eq (habove : StaysAbove (k.val + 1) l s) (h : runSchedule l s = .next t) :
    t.stack[k] = s.stack[k] := by
  induction l generalizing s with
  | nil =>
    cases h
    rfl
  | cons tr l ih =>
    obtain ⟨u, hu, hrest⟩ := runSchedule_cons_eq_next h
    have hne : k.val ≠ s.sp.val := Nat.ne_of_lt habove.le_sp
    calc
      t.stack[k] = u.stack[k] := ih (habove.tail hu) hrest
      _ = s.stack[k] := transition_stack_entry_eq hu hne

end Runs

/-- Settles O20: the entry the call wrote is kept while `SP` stays above it, and the return reads it. -/
theorem returnMatchesItsCall : Obligations.ReturnMatchesItsCall := by
  intro nnn l s s₁ s₂ hsp hcall habove hrun hdepth
  rw [exec_call_of_lt nnn hsp] at hcall
  cases hcall
  let k : Fin 16 := ⟨s.sp.val, hsp⟩
  have hentry : s₂.stack[k] = s.pc + 2 := by
    rw [runSchedule_stack_entry_eq habove hrun, State.setPc_stack, getElem_set_stack, if_pos rfl, returnAddress]
  exact ⟨_, exec_ret_of_succ (k := k) hdepth, hentry, rfl⟩

/-- Settles O16, by the two outcomes of a return. -/
theorem returnPopsTheReturnAddress : Obligations.ReturnPopsTheReturnAddress := by
  refine ⟨decodeWord_encodeWord .ret, fun s hpos => ?_, fun s hempty => exec_ret_of_empty hempty⟩
  obtain ⟨k, hk⟩ : ∃ k : Fin 16, s.sp.val = k.val + 1 := ⟨⟨s.sp.val - 1, by omega⟩, (Nat.sub_add_cancel hpos).symm⟩
  refine ⟨_, exec_ret_of_succ hk, fun j hj => ?_, hk.symm, rfl, setPc_setStack_frame s s.stack _ _⟩
  obtain rfl : j = k := Fin.ext (by omega)
  rfl

/-- Settles O17: jump only sets the program counter. -/
theorem jumpSetsThePcToTheAddress : Obligations.JumpSetsThePcToTheAddress :=
  fun nnn => ⟨decodeWord_encodeWord (.jump nnn), fun s =>
    ⟨s.setPc (absoluteTarget nnn), rfl, toNat_absoluteTarget nnn, setPc_sameButPc s _⟩⟩

/-- Settles O18, by the two outcomes of a call. -/
theorem callPushesTheNextAddress : Obligations.CallPushesTheNextAddress :=
  fun nnn => ⟨decodeWord_encodeWord (.call nnn),
    fun s hlt => ⟨_, exec_call_of_lt nnn hlt, toNat_absoluteTarget nnn, rfl,
      getElem_set_stack s.stack hlt (returnAddress s), toNat_add_two, setPc_setStack_frame s _ _ _⟩,
    fun _ hfull => exec_call_of_full nnn hfull⟩

/-- Settles O19: the exact sum is at most 0xFFF + 0xFF. -/
theorem jumpOffsetAddsRegisterZeroExactly : Obligations.JumpOffsetAddsRegisterZeroExactly := by
  refine fun nnn => ⟨decodeWord_encodeWord (.jumpOffset nnn), fun s => ?_⟩
  have hsum := toNat_offsetTarget nnn s
  have hbound : (offsetTarget nnn s).toNat ≤ 0x10FE := by omega
  exact ⟨s.setPc (offsetTarget nnn s), rfl, hsum, hbound, setPc_sameButPc s _⟩

end Sys2Proof.Machine
end

section
/-! SUPPORT. Skips (`41_skips.md`): the outcome of a test decides between the two advances, whatever is tested. -/

namespace Sys2Proof.Machine

/-- A skip's frame is that of any instruction that only sets the program counter. -/
theorem skipIf_sameButPc (s : State) (c : Bool) : SameButPc s (s.skipIf c) :=
  setPc_sameButPc s (if c then s.pc + 4 else s.pc + 2)

/-- An instruction that skips on the outcome `c` of its test advances by 4 where the test holds, by 2 where it does not,
and changes nothing else. -/
theorem exec_of_skipIf {i : Instr} {s : State} {c : Bool} {Holds Fails : Prop} (hexec : exec i s = .next (s.skipIf c))
    (hholds : Holds → c = true) (hfails : Fails → c = false) :
    ∃ t, exec i s = .next t ∧ (Holds → t.pc = s.pc + 4) ∧ (Fails → t.pc = s.pc + 2) ∧ SameButPc s t := by
  refine ⟨s.skipIf c, hexec, fun h => ?_, fun h => ?_, skipIf_sameButPc s c⟩
  · rw [State.skipIf_pc, hholds h, if_pos rfl]
  · rw [State.skipIf_pc, hfails h, if_neg Bool.false_ne_true]

/-- Classes 5 and 9 hold one instruction each, at the low nibble 0 (`30_encoding.md` R82). -/
theorem decodeWord_registerSkip_of_low_ne {c n : Nibble} (x y : Nibble) (hc : c = 0x5 ∨ c = 0x9) (hn : n ≠ 0) :
    decodeWord (assembleXYN c x y n) = none := by
  obtain rfl | rfl := hc <;> rw [decodeWord, fieldClass_assembleXYN, fieldN_assembleXYN] <;> exact if_neg hn

/-- Settles O21: the test compares `V[x]` with the literal. -/
theorem immediateSkipsTestARegisterAgainstALiteral : Obligations.ImmediateSkipsTestARegisterAgainstALiteral :=
  fun x kk => ⟨decodeWord_encodeWord (.skipEqImm x kk), decodeWord_encodeWord (.skipNeImm x kk), fun _ =>
    ⟨exec_of_skipIf rfl beq_iff_eq.mpr beq_false_of_ne, exec_of_skipIf rfl bne_iff_ne.mpr bne_eq_false_iff_eq.mpr⟩⟩

/-- Settles O22: the test compares `V[x]` with `V[y]`. -/
theorem registerSkipsTestTwoRegisters : Obligations.RegisterSkipsTestTwoRegisters :=
  fun x y => ⟨decodeWord_encodeWord (.skipEqReg x y), decodeWord_encodeWord (.skipNeReg x y),
    fun _ hn => ⟨decodeWord_registerSkip_of_low_ne x y (.inl rfl) hn,
      decodeWord_registerSkip_of_low_ne x y (.inr rfl) hn⟩,
    fun _ => ⟨exec_of_skipIf rfl beq_iff_eq.mpr beq_false_of_ne,
      exec_of_skipIf rfl bne_iff_ne.mpr bne_eq_false_iff_eq.mpr⟩⟩

end Sys2Proof.Machine
end

section
/-! SUPPORT. The register instructions (`42_register_ops.md`): what their shared end `result` does, and the bit-vector
facts their results need. -/

namespace Sys2Proof.Machine

/-- The shared end of the seven instructions: the destination takes the byte, the program counter advances and nothing
else changes. -/
theorem result_effect (x : Nibble) (b : Byte) (s : State) : ∃ t, result x b s = .next t ∧ t.readV x = b ∧
    t.pc = s.pc + 2 ∧ SameRegistersBut x s t ∧ SameOutsideRegisters s t := by
  refine ⟨(s.writeV x b).advance, rfl, ?_, rfl, fun r hr => ?_,
    ⟨rfl, ⟨rfl, rfl⟩, ⟨rfl, rfl⟩, fun _ => rfl, ⟨rfl, rfl, rfl⟩, ⟨rfl, rfl⟩, rfl, rfl, rfl, rfl⟩⟩
  · rw [State.advance_readV, State.readV_writeV_same]
  · rw [State.advance_readV, State.readV_writeV_ne _ x r b hr]

/-- A result that combines two registers bit by bit, and is `same` where the two are one register. -/
theorem result_bitwise {x y : Nibble} {s : State} {b same : Byte} {bit : Bool → Bool → Bool}
    (hbit : ∀ k : Nat, b.getLsbD k = bit ((s.readV x).getLsbD k) ((s.readV y).getLsbD k))
    (hsame : x = y → b = same) :
    ∃ t, result x b s = .next t ∧
      (∀ k : Nat, (t.readV x).getLsbD k = bit ((s.readV x).getLsbD k) ((s.readV y).getLsbD k)) ∧
      (x = y → t.readV x = same) ∧ t.pc = s.pc + 2 ∧ SameRegistersBut x s t ∧ SameOutsideRegisters s t := by
  obtain ⟨t, ht, rfl, hframe⟩ := result_effect x b s
  exact ⟨t, ht, hbit, hsame, hframe⟩

/-- A masked byte has no bit outside its mask. -/
theorem and_mask_and_not_mask (r kk : Byte) : r &&& kk &&& ~~~kk = 0 := by
  rw [BitVec.and_assoc, BitVec.and_not_self]
  exact BitVec.and_zero

/-- A byte with no bit outside a mask is left alone by it. -/
theorem and_mask_eq_self {b kk : Byte} (h : b &&& ~~~kk = 0) : b &&& kk = b :=
  calc
    b &&& kk = (b &&& kk) ||| (b &&& ~~~kk) := by rw [h]; exact BitVec.or_zero.symm
    _ = b &&& (kk ||| ~~~kk) := BitVec.and_or_distrib_left.symm
    _ = b := by rw [BitVec.or_not_self, BitVec.and_allOnes]

/-- Settles O24: the byte written is the literal. -/
theorem loadImmediateWritesTheLiteral : Obligations.LoadImmediateWritesTheLiteral :=
  fun x kk => ⟨decodeWord_encodeWord (.loadImm x kk), result_effect x kk⟩

/-- Settles O25: the sum of two bytes is taken modulo 256. -/
theorem addImmediateWrapsModulo256 : Obligations.AddImmediateWrapsModulo256 := by
  refine fun x kk => ⟨decodeWord_encodeWord (.addImm x kk), fun s => ?_⟩
  obtain ⟨t, ht, hsum, hframe⟩ := result_effect x (s.readV x + kk) s
  exact ⟨t, ht, hsum ▸ BitVec.toNat_add (s.readV x) kk, hframe⟩

/-- Settles O26: `V[y]` is kept, either as another register or, with `x = y`, as the value it is given. -/
theorem copyMovesARegister : Obligations.CopyMovesARegister := by
  refine fun x y => ⟨decodeWord_encodeWord (.copy x y), fun s => ?_⟩
  obtain ⟨t, ht, hx, hpc, hregs, hrest⟩ := result_effect x (s.readV y) s
  have hy : t.readV y = s.readV y := by
    by_cases hyx : y = x
    · rw [hyx, hx, hyx]
    · exact hregs y hyx
  exact ⟨t, ht, hx, hy, hpc, hregs, hrest⟩

/-- Settles O27: each operation is that of its bits, and or and and are idempotent while xor cancels. -/
theorem bitwiseOperationsCombineTwoRegisters : Obligations.BitwiseOperationsCombineTwoRegisters :=
  fun x y => ⟨decodeWord_encodeWord (.bitOr x y), decodeWord_encodeWord (.bitAnd x y),
    decodeWord_encodeWord (.bitXor x y), fun _ =>
      ⟨result_bitwise (fun _ => BitVec.getLsbD_or) fun h => h ▸ BitVec.or_self,
        result_bitwise (fun _ => BitVec.getLsbD_and) fun h => h ▸ BitVec.and_self,
        result_bitwise (fun _ => BitVec.getLsbD_xor) fun h => h ▸ BitVec.xor_self⟩⟩

/-- Settles O28: a draw changes the random source alone, and a byte inside the mask is reached by drawing it. -/
theorem randomAndMasksAnyByte : Obligations.RandomAndMasksAnyByte := by
  refine fun x kk => ⟨decodeWord_encodeWord (.randomAnd x kk), fun s => ?_, fun s b hb => ?_⟩
  · obtain ⟨t, ht, hx, hpc, hregs, hindex, hstack, htimers, hmem, hdisplay, _, hsession⟩ :=
      result_effect x (s.nextRandom &&& kk) s.drawRandom
    have hmask : t.readV x &&& ~~~kk = 0 := hx ▸ and_mask_and_not_mask s.nextRandom kk
    exact ⟨t, ht, hx, hmask, hpc, hregs, hindex, hstack, htimers, hmem, hdisplay, hsession⟩
  · obtain ⟨t, ht, hx, _⟩ := result_effect x (b &&& kk) { s with randomInput := b :: s.randomInput }.drawRandom
    exact ⟨b, t, ht, hx.trans (and_mask_eq_self hb)⟩

/-- Settles O29: the load gives the value to `r`, and the copy gives it to `q` and keeps it in `r`. -/
theorem loadThenCopyCarriesTheValue : Obligations.LoadThenCopyCarriesTheValue := by
  intro r q b s
  obtain ⟨t, hload, ht, _⟩ := (loadImmediateWritesTheLiteral r b).2 s
  obtain ⟨u, hcopy, hq, hr, _⟩ := (copyMovesARegister q r).2 t
  exact ⟨t, u, hload, hcopy, hq.trans ht, hr.trans ht⟩

end Sys2Proof.Machine
end

section
/-! SUPPORT. The index register and the timers (`43_index_and_timers.md`): the frame of each pair of instructions, and the
index arithmetic as a sum of numbers. -/

namespace Sys2Proof.Machine

/-- The frame of set-index and add-to-index, whose only destinations are `I` and the program counter. -/
theorem setIndex_advance_frame (s : State) (a : Addr) :
    let t := (s.setIndex a).advance
    t.pc = s.pc + 2 ∧ SameRegisters s t ∧ SameStack s t ∧ SameTimers s t ∧ SameMemory s t ∧ SameDisplay s t ∧
      SameRandom s t ∧ SameSession s t :=
  ⟨rfl, fun _ => rfl, ⟨rfl, rfl⟩, ⟨rfl, rfl⟩, fun _ => rfl, ⟨rfl, rfl, rfl⟩, ⟨rfl, rfl⟩, rfl, rfl, rfl, rfl⟩

/-- The frame of the two timer instructions: one of the timers takes a byte, and the other the value it has. -/
theorem setTimers_advance_frame (s : State) (delay sound : Byte) :
    let t := State.advance { s with dt := delay, st := sound }
    t.pc = s.pc + 2 ∧ SameRegisters s t ∧ t.index = s.index ∧ SameStack s t ∧ SameMemory s t ∧ SameDisplay s t ∧
      SameRandom s t ∧ SameSession s t :=
  ⟨rfl, fun _ => rfl, rfl, ⟨rfl, rfl⟩, fun _ => rfl, ⟨rfl, rfl, rfl⟩, ⟨rfl, rfl⟩, rfl, rfl, rfl, rfl⟩

/-- A byte loses nothing by its widening to an address, so only the sum wraps (`43_index_and_timers.md` R121). -/
theorem toNat_indexSum (x : Nibble) (s : State) :
    (indexSum x s).toNat = (s.index.toNat + (s.readV x).toNat) % 4096 := by
  rw [indexSum, BitVec.toNat_add, BitVec.toNat_setWidth_of_le (by decide)]

/-- Settles O31: set-index is that one update. -/
theorem setIndexLoadsTheAddress : Obligations.SetIndexLoadsTheAddress :=
  fun nnn => ⟨decodeWord_encodeWord (.setIndex nnn), fun s =>
    ⟨(s.setIndex nnn).advance, rfl, rfl, setIndex_advance_frame s nnn⟩⟩

/-- Settles O32: the same update, at the index sum. -/
theorem addToIndexWrapsModulo4096 : Obligations.AddToIndexWrapsModulo4096 :=
  fun x => ⟨decodeWord_encodeWord (.addIndex x), fun s =>
    ⟨(s.setIndex (indexSum x s)).advance, rfl, toNat_indexSum x s, setIndex_advance_frame s (indexSum x s)⟩⟩

/-- Settles O33: each instruction sets its own timer and leaves the other what it is. -/
theorem timerInstructionsCopyARegister : Obligations.TimerInstructionsCopyARegister :=
  fun x => ⟨decodeWord_encodeWord (.setDelay x), decodeWord_encodeWord (.setSound x), fun s =>
    ⟨⟨(s.setDelay (s.readV x)).advance, rfl, rfl, rfl, setTimers_advance_frame s (s.readV x) s.st⟩,
      ⟨(s.setSound (s.readV x)).advance, rfl, rfl, rfl, setTimers_advance_frame s s.dt (s.readV x)⟩⟩⟩

end Sys2Proof.Machine
end

section
/-! SUPPORT. clear-screen and draw-sprite (`44_display_ops.md`): the bytes of a sprite, and what an answered and a
failed Display call leave unchanged. -/

namespace Sys2Proof.Machine

/-- A sprite that lies in memory has its `n` bytes, from `I` up (`44_display_ops.md` R132). -/
theorem exists_spriteBytes_of_le {n : Nibble} {s : State} (h : s.index.toNat + n.toNat ≤ memSize) :
    ∃ sprite, spriteBytes n s = some sprite ∧ sprite.length = n.toNat ∧
      ∀ k : Nat, k < n.toNat → sprite[k]? = some (Memory.read s.mem (s.index.toNat + k)) := by
  refine ⟨_, Memory.range_eq_some h, by rw [List.length_map, List.length_range], fun k hk => ?_⟩
  rw [List.getElem?_map, List.getElem?_range hk, Option.map_some]

theorem exec_drawSprite_of_some (x y : Nibble) {n : Nibble} {s : State} {sprite : List Byte}
    (h : spriteBytes n s = some sprite) : exec (.drawSprite x y n) s =
      callDisplay (drawCall x y sprite s) (fun c t => (t.setFlag c).advance) s := by
  rw [exec, execDrawSprite, h]

/-- The range check comes before the call (`44_display_ops.md` R133). -/
theorem exec_drawSprite_of_none (x y : Nibble) {n : Nibble} {s : State} (h : spriteBytes n s = none) :
    exec (.drawSprite x y n) s = .next (s.setFaulted (.memoryOutOfRange s.index n)) := by
  rw [exec, execDrawSprite, h]
  rfl

/-- The frame of an answered call: besides the Display's own fields, only registers and the program counter change. -/
theorem recordCall_setRegisters_advance_frame (s : State) (c : DisplayCall) (regs : Vector Byte 16) :
    let t := State.advance { s.recordCall c with v := regs }
    t.index = s.index ∧ SameStack s t ∧ SameTimers s t ∧ SameMemory s t ∧ SameRandom s t ∧ SameSession s t :=
  ⟨rfl, ⟨rfl, rfl⟩, ⟨rfl, rfl⟩, fun _ => rfl, ⟨rfl, rfl⟩, rfl, rfl, rfl, rfl⟩

/-- A failed call changes no core state (`60_exceptions.md` R155). -/
theorem recordCall_setFaulted_sameCore (s : State) (c : DisplayCall) (e : ErrorKind) :
    SameCore s ((s.recordCall c).setFaulted e) :=
  ⟨fun _ => rfl, rfl, rfl, ⟨rfl, rfl⟩, ⟨rfl, rfl⟩, fun _ => rfl⟩

/-- Settles O41, by the Display's two answers. -/
theorem clearScreenCallsTheDisplay : Obligations.ClearScreenCallsTheDisplay :=
  ⟨decodeWord_encodeWord .clearScreen,
    fun s _ hok => ⟨(s.recordCall .clear).advance, callDisplay_of_ok .clear _ hok, rfl, rfl, fun _ => rfl,
      recordCall_setRegisters_advance_frame s .clear s.v⟩,
    fun s info hfails => ⟨(s.recordCall .clear).setFaulted (.collaboratorFailure info),
      callDisplay_of_fails .clear _ hfails, rfl, recordCall_setFaulted_sameCore s .clear _, rfl⟩⟩

/-- Settles O42: the range check decides whether there is a call, and the Display's answer how it ends. -/
theorem drawSpriteCallsTheDisplayAndSetsTheFlag : Obligations.DrawSpriteCallsTheDisplayAndSetsTheFlag := by
  refine fun x y n => ⟨decodeWord_encodeWord (.drawSprite x y n), fun s c hfits hok => ?_, fun s hpast => ?_,
    fun s info hfits hfails => ?_⟩
  · obtain ⟨sprite, hsprite, hlength, hbytes⟩ := exists_spriteBytes_of_le hfits
    let called := s.recordCall (drawCall x y sprite s)
    have hexec : exec (.drawSprite x y n) s = .next (called.setFlag c).advance := by
      rw [exec_drawSprite_of_some x y hsprite, callDisplay_of_ok _ _ hok]
    exact ⟨_, sprite, hexec, hlength, hbytes, rfl, called.setFlag_readV_flag c, rfl,
      called.setFlag_readV_ne c, recordCall_setRegisters_advance_frame s _ (called.setFlag c).v⟩
  · exact exec_drawSprite_of_none x y (Memory.range_eq_none hpast)
  · obtain ⟨sprite, hsprite, _⟩ := exists_spriteBytes_of_le hfits
    have hexec : exec (.drawSprite x y n) s =
        .next ((s.recordCall (drawCall x y sprite s)).setFaulted (.collaboratorFailure info)) := by
      rw [exec_drawSprite_of_some x y hsprite, callDisplay_of_fails _ _ hfails]
    exact ⟨_, hexec, rfl, recordCall_setFaulted_sameCore s _ _⟩

end Sys2Proof.Machine
end

section
/-! SUPPORT. The Unknown form (`45_unmapped_words.md`): what the front of a step answers for a word that decodes to
nothing, and that a step whose front answers an error raises it. -/

namespace Sys2Proof.Machine

theorem fetchDecode_of_decodeWord_none {s : State} (hpc : s.pc.toNat ≤ 0xFFE)
    (h : decodeWord (Memory.fetch16 s.mem s.pc.toNat) = none) :
    fetchDecode s = .error (.unimplementedOpcode (Memory.fetch16 s.mem s.pc.toNat) s.pc) := by
  simp only [fetchDecode, fetchWord_of_le hpc, decodeFetched, h]

theorem engineStep_of_fetchDecode_error {s : State} {e : ErrorKind} (h : fetchDecode s = .error e) :
    engineStep s = .next (s.setFaulted e) := by
  rw [engineStep, h]
  rfl

/-- Settles O10: a word that no row selects decodes to nothing, so the front of the step answers the error. -/
theorem unknownWordRaisesUnimplementedOpcode : Obligations.UnknownWordRaisesUnimplementedOpcode := by
  intro s hlive hpc hunmapped
  have hdecode : decodeWord (Memory.fetch16 s.mem s.pc.toNat) = none :=
    (decoderFollowsTheOpcodeMap.2 _).mpr hunmapped
  rw [transition_step hlive, engineStep_of_fetchDecode_error (fetchDecode_of_decodeWord_none hpc hdecode)]
  rfl

end Sys2Proof.Machine
end

section
/-! SUPPORT. The schedule (`60_exceptions.md` R169 to R171): no step looks at the timers or at the schedule, so runs
with equally many steps differ in the timers alone, and the machine's own steps execute the schedule of its state. -/

namespace Sys2Proof.Machine

/-! ### What an instruction never looks at -/

/-- The state with other timers and with another schedule before it. -/
def State.retimed (s : State) (d e : Byte) (l : List Transition) (m : Nat) : State :=
  { s with dt := d, st := e, schedule := l, moves := m }

/-- The state with another schedule before it (log entry 6). -/
def State.withSchedule (s : State) (l : List Transition) (m : Nat) : State := s.retimed s.dt s.st l m

/-- A meaning always answers a next state, and neither the timers nor the schedule decide which: under other ones it
answers that state again, but for its timers, with the other schedule kept (`60_exceptions.md` R170, R171). A timer that
starts with the value it had also ends with the value it had. -/
def IgnoresTimersAndSchedule (f : State → Answer) : Prop :=
  ∀ (s : State) (d e : Byte) (l : List Transition) (m : Nat), ∃ (t : State) (d' e' : Byte),
    f s = .next t ∧ f (s.retimed d e l m) = .next (t.retimed d' e' l m) ∧
      (d = s.dt → d' = t.dt) ∧ (e = s.st → e' = t.st)

theorem exec_ignoresTimersAndSchedule (i : Instr) : IgnoresTimersAndSchedule (exec i) := by
  intro s d e l m
  cases i with
  | setDelay x => exact ⟨_, s.readV x, e, rfl, rfl, fun _ => rfl, id⟩
  | setSound x => exact ⟨_, d, s.readV x, rfl, rfl, id, fun _ => rfl⟩
  | call nnn =>
    obtain ⟨hlt, -⟩ | ⟨hfull, -⟩ := push_cases (returnAddress s) s
    · exact ⟨_, d, e, exec_call_of_lt nnn hlt, exec_call_of_lt (s := s.retimed d e l m) nnn hlt, id, id⟩
    · exact ⟨_, d, e, exec_call_of_full nnn hfull, exec_call_of_full nnn hfull, id, id⟩
  | ret =>
    obtain ⟨hpos, -⟩ | ⟨hempty, -⟩ := pop_cases s
    · obtain ⟨k, hk⟩ : ∃ k : Fin 16, s.sp.val = k.val + 1 :=
        ⟨⟨s.sp.val - 1, by omega⟩, (Nat.sub_add_cancel hpos).symm⟩
      exact ⟨_, d, e, exec_ret_of_succ hk, exec_ret_of_succ (s := s.retimed d e l m) hk, id, id⟩
    · exact ⟨_, d, e, exec_ret_of_empty hempty, exec_ret_of_empty hempty, id, id⟩
  | clearScreen =>
    cases ha : s.nextAnswer with
    | ok c => exact ⟨_, d, e, callDisplay_of_ok _ _ ha, callDisplay_of_ok _ _ ha, id, id⟩
    | fails info => exact ⟨_, d, e, callDisplay_of_fails _ _ ha, callDisplay_of_fails _ _ ha, id, id⟩
  | drawSprite x y n =>
    have hsame : spriteBytes n (s.retimed d e l m) = spriteBytes n s := rfl
    cases hb : spriteBytes n s with
    | none => exact ⟨_, d, e, exec_drawSprite_of_none x y hb, exec_drawSprite_of_none x y (hsame.trans hb), id, id⟩
    | some sprite =>
      rw [exec_drawSprite_of_some x y hb, exec_drawSprite_of_some x y (hsame.trans hb)]
      cases ha : s.nextAnswer with
      | ok c => exact ⟨_, d, e, callDisplay_of_ok _ _ ha, callDisplay_of_ok _ _ ha, id, id⟩
      | fails info => exact ⟨_, d, e, callDisplay_of_fails _ _ ha, callDisplay_of_fails _ _ ha, id, id⟩
  | _ => exact ⟨_, d, e, rfl, rfl, id, id⟩

theorem engineStep_ignoresTimersAndSchedule : IgnoresTimersAndSchedule engineStep := by
  intro s d e l m
  have hsame : fetchDecode (s.retimed d e l m) = fetchDecode s := rfl
  cases hf : fetchDecode s with
  | ok i =>
    rw [engineStep_of_fetchDecode hf, engineStep_of_fetchDecode (hsame.trans hf)]
    exact exec_ignoresTimersAndSchedule i s d e l m
  | error err =>
    exact ⟨_, d, e, engineStep_of_fetchDecode_error hf, engineStep_of_fetchDecode_error (hsame.trans hf), id, id⟩

section TwoStates

variable {f : State → Answer} {s t u : State}

/-- Given the schedule the state has, it keeps that one. -/
theorem IgnoresTimersAndSchedule.keeps_schedule (hf : IgnoresTimersAndSchedule f) (h : f s = .next t) :
    t.schedule = s.schedule ∧ t.moves = s.moves := by
  obtain ⟨v, d', e', -, hv, -⟩ := hf s s.dt s.st s.schedule s.moves
  obtain rfl : t = v.retimed d' e' s.schedule s.moves := Host.Outcome.next.inj (h.symm.trans hv)
  exact ⟨rfl, rfl⟩

theorem IgnoresTimersAndSchedule.withSchedule (hf : IgnoresTimersAndSchedule f) (h : f s = .next t)
    (l : List Transition) (m : Nat) : f (s.withSchedule l m) = .next (t.withSchedule l m) := by
  obtain ⟨v, d', e', hs, hv, hd, he⟩ := hf s s.dt s.st l m
  obtain rfl : t = v := Host.Outcome.next.inj (h.symm.trans hs)
  obtain rfl := hd rfl
  obtain rfl := he rfl
  exact hv

theorem sameButTimers_iff : SameButTimers s t ↔ ∃ d e, t = { s with dt := d, st := e } := by
  refine ⟨fun h => ⟨_, _, h⟩, ?_⟩
  rintro ⟨d, e, rfl⟩
  rfl

theorem SameButTimers.refl (s : State) : SameButTimers s s := rfl

theorem SameButTimers.symm (h : SameButTimers s t) : SameButTimers t s := by
  obtain ⟨d, e, rfl⟩ := sameButTimers_iff.mp h
  rfl

theorem SameButTimers.trans (h : SameButTimers s t) (h' : SameButTimers t u) : SameButTimers s u := by
  obtain ⟨d, e, rfl⟩ := sameButTimers_iff.mp h
  exact h'

theorem IgnoresTimersAndSchedule.sameButTimers (hf : IgnoresTimersAndSchedule f) (hsu : SameButTimers s u)
    (h : f s = .next t) : ∃ v, f u = .next v ∧ SameButTimers t v := by
  obtain ⟨d, e, rfl⟩ := sameButTimers_iff.mp hsu
  obtain ⟨v, d', e', hs, hv, -⟩ := hf s d e s.schedule s.moves
  obtain rfl : t = v := Host.Outcome.next.inj (h.symm.trans hs)
  obtain ⟨hschedule, hmoves⟩ := hf.keeps_schedule h
  exact ⟨_, hv, sameButTimers_iff.mpr ⟨d', e', by rw [State.retimed, hschedule, hmoves]⟩⟩

end TwoStates

/-! ### Runs that differ in their ticks alone -/

/-- A run leads to what its steps alone lead to, but for the timers: a tick changes nothing else, and a step does not
look at them. -/
theorem runSchedule_steps_of_sameButTimers {l : List Transition} {s t u : State} (hsu : SameButTimers s u)
    (h : runSchedule l s = .next t) :
    ∃ v, runSchedule (List.replicate (engineSteps l) .step) u = .next v ∧ SameButTimers t v := by
  induction l generalizing s u with
  | nil =>
    cases h
    exact ⟨u, rfl, hsu⟩
  | cons tr l ih =>
    obtain ⟨s', hs', hrest⟩ := runSchedule_cons_eq_next h
    obtain ⟨hlive, ⟨rfl, hstep⟩ | ⟨rfl, rfl⟩⟩ := transition_eq_next hs'
    · have hlive' : u.Live := by
        obtain ⟨d, e, rfl⟩ := sameButTimers_iff.mp hsu
        exact hlive
      obtain ⟨u', hu', hsu'⟩ := engineStep_ignoresTimersAndSchedule.sameButTimers hsu hstep
      obtain ⟨v, hv, htv⟩ := ih hsu' hrest
      refine ⟨v, ?_, htv⟩
      rw [engineSteps, List.count_cons_self, List.replicate_succ, runSchedule, transition_step hlive', hu']
      exact hv
    · have htick : SameButTimers (tick s) s := SameButTimers.symm rfl
      obtain ⟨v, hv, htv⟩ := ih (htick.trans hsu) hrest
      refine ⟨v, ?_, htv⟩
      rw [engineSteps, List.count_cons_of_ne (by decide)]
      exact hv

/-- Settles O37: both runs lead, but for the timers, to where their equally many steps alone lead. -/
theorem scheduleAffectsOnlyTheTimers : Obligations.ScheduleAffectsOnlyTheTimers := by
  intro l₁ l₂ s₁ s₂ t₁ t₂ hsteps hs h₁ h₂
  obtain ⟨v₁, hv₁, ht₁⟩ := runSchedule_steps_of_sameButTimers hs h₁
  obtain ⟨v₂, hv₂, ht₂⟩ := runSchedule_steps_of_sameButTimers (SameButTimers.refl s₂) h₂
  obtain rfl : v₁ = v₂ := by
    rw [hsteps, hv₂] at hv₁
    exact (Host.Outcome.next.inj hv₁).symm
  exact ht₁.trans ht₂.symm

/-! ### The machine's steps follow its schedule -/

/-- What an answer gives with the next state, if there is one, changed. -/
def mapNext (f : State → State) : Answer → Answer
  | .next s => .next (f s)
  | .fault r => .fault r
  | .refused r => .refused r

theorem exists_engineStep_eq_next (s : State) : ∃ t, engineStep s = .next t := by
  cases hf : fetchDecode s with
  | ok i =>
    obtain ⟨t, ht, -⟩ := exec_effect i s
    exact ⟨t, (engineStep_of_fetchDecode hf).trans ht⟩
  | error e => exact ⟨_, engineStep_of_fetchDecode_error hf⟩

/-- No transition looks at the schedule or changes it. -/
theorem transition_withSchedule (tr : Transition) (s : State) (l : List Transition) (m : Nat) :
    transition tr (s.withSchedule l m) = mapNext (·.withSchedule l m) (transition tr s) := by
  cases hs : s.status with
  | faulted e =>
    have hs' : (s.withSchedule l m).status = .faulted e := hs
    rw [transition_of_faulted tr hs, transition_of_faulted tr hs', mapNext]
  | running =>
    have hs' : (s.withSchedule l m).status = .running := hs
    cases hl : s.loaded with
    | false => rw [transition_of_unloaded tr hs hl, transition_of_unloaded tr hs' hl, mapNext]
    | true =>
      cases tr with
      | tick => rw [transition_tick ⟨hs, hl⟩, transition_tick ⟨hs', hl⟩]; rfl
      | step =>
        obtain ⟨t, ht⟩ := exists_engineStep_eq_next s
        rw [transition_step ⟨hs, hl⟩, transition_step ⟨hs', hl⟩, ht, mapNext]
        exact engineStep_ignoresTimersAndSchedule.withSchedule ht l m

theorem transition_keeps_schedule {tr : Transition} {s t : State} (h : transition tr s = .next t) :
    t.schedule = s.schedule ∧ t.moves = s.moves := by
  obtain ⟨-, ⟨-, hstep⟩ | ⟨-, rfl⟩⟩ := transition_eq_next h
  · exact engineStep_ignoresTimersAndSchedule.keeps_schedule hstep
  · exact ⟨rfl, rfl⟩

/-- The machine's `n` steps execute the first `n` transitions its state has before it, which are then taken from it. -/
theorem coreRun_eq_runFirst (n : Nat) (s : State) : Host.Core.run core n s =
    runFirst s.scheduled n (s.withSchedule (s.schedule.drop n) (s.moves + n)) := by
  induction n generalizing s with
  | zero => rfl
  | succ n ih =>
    have htaken : s.withSchedule (s.schedule.drop (n + 1)) (s.moves + (n + 1)) =
        s.takeTransition.withSchedule (s.takeTransition.schedule.drop n) (s.takeTransition.moves + n) := by
      rw [State.takeTransition_schedule, List.drop_tail, State.takeTransition_moves, Nat.add_right_comm]
      rfl
    rw [runFirst, firstTransitions_succ', runSchedule, htaken, transition_withSchedule]
    simp only [Host.Core.run]
    rw [show core.step s = transition (s.scheduled 0) s.takeTransition from rfl]
    cases ha : transition (s.scheduled 0) s.takeTransition with
    | fault r => rfl
    | refused r => rfl
    | next t =>
      obtain ⟨hschedule, hmoves⟩ := transition_keeps_schedule ha
      have hscheduled : t.scheduled = fun k => s.scheduled (k + 1) := by
        funext k
        rw [State.scheduled, hschedule, hmoves, ← State.scheduled, State.takeTransition_scheduled]
      rw [← hschedule, ← hmoves, ← hscheduled]
      exact ih t

/-- A state's supplied transitions are the beginning of its schedule. -/
theorem firstTransitions_scheduled (s : State) : firstTransitions s.scheduled s.schedule.length = s.schedule := by
  refine List.ext_getElem (length_firstTransitions _ _) fun k hk hk' => ?_
  rw [← State.scheduled_of_lt hk']
  simp [firstTransitions]

theorem coreRun_supplied (l : List Transition) (s : State) :
    Host.Core.run core l.length ({ s with schedule := l } : State) =
      runSchedule l { s with schedule := [], moves := s.moves + l.length } := by
  have h := coreRun_eq_runFirst l.length { s with schedule := l }
  rw [runFirst, firstTransitions_scheduled { s with schedule := l }, List.drop_length] at h
  exact h

/-- Settles O38: an input that holds the whole schedule is used up, and its transitions are the first ones. -/
theorem stepFollowsEverySchedule : Obligations.StepFollowsEverySchedule := by
  refine ⟨coreRun_eq_runFirst, coreRun_supplied, fun σ n s => ?_⟩
  have h := coreRun_supplied (firstTransitions σ n) s
  rwa [length_firstTransitions] at h

end Sys2Proof.Machine
end

section
/-! SUPPORT. Errors (`60_exceptions.md` R150 to R161, R181): a live state always moves, a step raises exactly the listed
errors, one that does changes no core state, and the 17th nested call is one. -/

namespace Sys2Proof.Machine

/-! ### A live state always moves -/

/-- Settles O13: an engine step always answers a next state, and so does a tick. -/
theorem runningMachineAlwaysMoves : Obligations.RunningMachineAlwaysMoves := by
  intro s tr hlive
  cases tr with
  | step => rw [transition_step hlive]; exact exists_engineStep_eq_next s
  | tick => exact ⟨tick s, transition_tick hlive⟩

/-! ### The errors a step raises -/

theorem fetchDecode_of_gt {s : State} (h : 0xFFE < s.pc.toNat) : fetchDecode s = .error (.fetchOutOfRange s.pc) := by
  rw [fetchDecode, fetchWord_of_gt h]

/-- Settles O11: the front of the step answers the error before it reads memory. -/
theorem fetchPastMemoryRaisesFetchOutOfRange : Obligations.FetchPastMemoryRaisesFetchOutOfRange := by
  intro s hlive hpc
  rw [transition_step hlive, engineStep_of_fetchDecode_error (fetchDecode_of_gt hpc)]
  rfl

/-- A sprite is missing only where its bytes do not all lie in memory. -/
theorem lt_of_spriteBytes_eq_none {n : Nibble} {s : State} (h : spriteBytes n s = none) :
    memSize < s.index.toNat + n.toNat := by
  by_contra hle
  obtain ⟨sprite, hsome, -⟩ := exists_spriteBytes_of_le (Nat.le_of_not_lt hle)
  cases h.symm.trans hsome

theorem le_of_spriteBytes_eq_some {n : Nibble} {s : State} {sprite : List Byte} (h : spriteBytes n s = some sprite) :
    s.index.toNat + n.toNat ≤ memSize := by
  by_contra hlt
  have hnone : spriteBytes n s = none := Memory.range_eq_none (Nat.lt_of_not_le hlt)
  cases h.symm.trans hnone

section Raises

variable {s t : State} {i : Instr} {e : ErrorKind}

/-- An instruction that ends a running session does so under one of the listed conditions. -/
theorem Effect.stepRaises (h : Effect s i t) (hs : s.Running) (ht : t.status = .faulted e)
    (hf : fetchDecode s = .ok i) : StepRaises s e := by
  cases h with
  | overflow hsp => cases ht; exact .overflow _ hf hsp
  | underflow hsp => cases ht; exact .underflow hf hsp
  | outOfRange hb => cases ht; exact .sprite _ _ _ hf (lt_of_spriteBytes_eq_none hb)
  | clearFails ha => cases ht; exact .clear _ hf ha
  | drawFails hb ha => cases ht; exact .draw _ _ _ _ hf (le_of_spriteBytes_eq_some hb) ha
  | _ => cases hs.symm.trans ht

/-- The front of a step answers an error under one of the two listed conditions. -/
theorem stepRaises_of_fetchDecode_error (hf : fetchDecode s = .error e) : StepRaises s e := by
  obtain ⟨hpc, hf'⟩ | ⟨hpc, hdecode, hf'⟩ | ⟨i, -, -, hf'⟩ := fetchDecode_cases s <;> cases hf.symm.trans hf'
  · exact .fetch hpc
  · exact .unknown hpc hdecode

/-- Each listed condition makes a step raise its error. -/
theorem StepRaises.engineStep_faulted (h : StepRaises s e) : ∃ t, engineStep s = .next t ∧ t.status = .faulted e := by
  cases h with
  | fetch hpc => exact ⟨_, engineStep_of_fetchDecode_error (fetchDecode_of_gt hpc), rfl⟩
  | unknown hpc hdecode =>
    exact ⟨_, engineStep_of_fetchDecode_error (fetchDecode_of_decodeWord_none hpc hdecode), rfl⟩
  | overflow nnn hf hsp => exact ⟨_, (engineStep_of_fetchDecode hf).trans (exec_call_of_full nnn hsp), rfl⟩
  | underflow hf hsp => exact ⟨_, (engineStep_of_fetchDecode hf).trans (exec_ret_of_empty hsp), rfl⟩
  | sprite x y n hf hr =>
    exact ⟨_, (engineStep_of_fetchDecode hf).trans (exec_drawSprite_of_none x y (Memory.range_eq_none hr)), rfl⟩
  | clear info hf ha => exact ⟨_, (engineStep_of_fetchDecode hf).trans (callDisplay_of_fails _ _ ha), rfl⟩
  | draw x y n info hf hr ha =>
    obtain ⟨sprite, hb, -⟩ := exists_spriteBytes_of_le hr
    have hexec := (exec_drawSprite_of_some x y hb).trans (callDisplay_of_fails _ _ ha)
    exact ⟨_, (engineStep_of_fetchDecode hf).trans hexec, rfl⟩

theorem setFaulted_sameCore (s : State) (e : ErrorKind) : SameCore s (s.setFaulted e) :=
  ⟨fun _ => rfl, rfl, rfl, ⟨rfl, rfl⟩, ⟨rfl, rfl⟩, fun _ => rfl⟩

/-- An instruction that ends a running session changes no core state (`60_exceptions.md` R160). -/
theorem Effect.sameCore_of_faulted (h : Effect s i t) (hs : s.Running) (ht : t.status = .faulted e) : SameCore s t := by
  cases h with
  | overflow | underflow | outOfRange => exact setFaulted_sameCore s _
  | clearFails | drawFails => exact recordCall_setFaulted_sameCore s _ _
  | _ => cases hs.symm.trans ht

end Raises

/-- Settles O14: the front of a step and each instruction raise their errors under the listed conditions alone. -/
theorem stepRaisesExactlyTheListedErrors : Obligations.StepRaisesExactlyTheListedErrors := by
  intro s e hlive
  rw [transition_step hlive]
  refine ⟨?_, StepRaises.engineStep_faulted⟩
  rintro ⟨t, hstep, ht⟩
  obtain ⟨e', hf, rfl⟩ | ⟨i, -, hf, hi⟩ := engineStep_eq_next hstep
  · cases ht
    exact stepRaises_of_fetchDecode_error hf
  · exact (effect_of_exec hi).stepRaises hlive.1 ht hf

/-- Settles O15: the error is raised by the front of the step or by the instruction. -/
theorem failingStepChangesNoCoreState : Obligations.FailingStepChangesNoCoreState := by
  intro s t e hlive hstep ht
  rw [transition_step hlive] at hstep
  obtain ⟨e', -, rfl⟩ | ⟨i, -, -, hi⟩ := engineStep_eq_next hstep
  · exact setFaulted_sameCore s e'
  · exact (effect_of_exec hi).sameCore_of_faulted hlive.1 ht

/-! ### Nested calls -/

/-- Calls complete as long as there is a free entry for each. -/
theorem exists_nestCalls_eq_next {targets : List Addr} {s : State} (h : s.sp.val + targets.length ≤ 16) :
    ∃ t, nestCalls targets s = .next t ∧ t.sp.val = s.sp.val + targets.length ∧ t.status = s.status := by
  induction targets generalizing s with
  | nil => exact ⟨s, rfl, rfl, rfl⟩
  | cons nnn rest ih =>
    rw [List.length_cons] at h ⊢
    obtain ⟨u, hu, husp, hustatus⟩ :
        ∃ u, exec (.call nnn) s = .next u ∧ u.sp.val = s.sp.val + 1 ∧ u.status = s.status :=
      ⟨_, exec_call_of_lt nnn (by omega), rfl, rfl⟩
    obtain ⟨t, ht, hsp, hstatus⟩ := ih (s := u) (by omega)
    refine ⟨t, ?_, by omega, hstatus.trans hustatus⟩
    rw [nestCalls, hu]
    exact ht

/-- Settles O57: sixteen calls fill an empty stack. -/
theorem seventeenthNestedCallOverflows : Obligations.SeventeenthNestedCallOverflows := by
  refine ⟨fun targets nnn s hempty hlength => ?_, fun nnn _ hfull => exec_call_of_full nnn hfull,
    fun _ hempty => exec_ret_of_empty hempty⟩
  obtain ⟨t, ht, hsp, hstatus⟩ := exists_nestCalls_eq_next (targets := targets) (s := s) (by omega)
  have hfull : t.sp.val = 16 := by omega
  exact ⟨t, ht, hfull, hstatus, exec_call_of_full nnn hfull⟩

end Sys2Proof.Machine
end

section
/-! SUPPORT. Timers, the Display's record and the end of a session along runs (`60_exceptions.md` R167 to R169,
R180). -/

namespace Sys2Proof.Machine

/-! ### The timers -/

/-- Subtraction of numbers stops at 0, as the countdown does. -/
theorem toNat_countDown (b : Byte) : (countDown b).toNat = b.toNat - 1 := by
  unfold countDown
  split
  · next h => rw [h]; rfl
  · next h => bv_omega

/-- Settles O34: each timer is counted down, and a tick is no other change. -/
theorem tickCountsBothTimersDown : Obligations.TickCountsBothTimersDown :=
  fun s hlive => ⟨tick s, transition_tick hlive, toNat_countDown s.dt, toNat_countDown s.st, rfl⟩

theorem StepsAvoid.tail {p : Instr → Prop} {tr : Transition} {l : List Transition} {s u : State}
    (h : StepsAvoid p (tr :: l) s) (hu : transition tr s = .next u) : StepsAvoid p l u := by
  intro k v i hv hk
  have hrun : runSchedule ((tr :: l).take (k + 1)) s = .next v := by
    rw [List.take_succ_cons, runSchedule, hu]
    exact hv
  exact h (k + 1) v i hrun hk

/-- A timer that a tick counts down, an error leaves and no executed instruction writes has gone down by the number of
ticks, or to 0. -/
theorem runSchedule_timer_eq_sub {timer : State → Byte} {writes : Instr → Prop}
    (htick : ∀ s, timer (tick s) = countDown (timer s)) (hfault : ∀ s e, timer (s.setFaulted e) = timer s)
    (hexec : ∀ {s i t}, Effect s i t → timer t = timer s ∨ writes i)
    {l : List Transition} {s t : State} (h : runSchedule l s = .next t) (havoid : StepsAvoid writes l s) :
    (timer t).toNat = (timer s).toNat - l.count .tick := by
  induction l generalizing s with
  | nil =>
    cases h
    rfl
  | cons tr l ih =>
    obtain ⟨u, hu, hrest⟩ := runSchedule_cons_eq_next h
    rw [ih hrest (havoid.tail hu)]
    obtain ⟨-, ⟨rfl, hstep⟩ | ⟨rfl, rfl⟩⟩ := transition_eq_next hu
    · rw [List.count_cons_of_ne (by decide)]
      obtain ⟨e, -, rfl⟩ | ⟨i, -, hf, hi⟩ := engineStep_eq_next hstep
      · rw [hfault]
      · rw [(hexec (effect_of_exec hi)).resolve_right (havoid 0 s i rfl rfl hf)]
    · rw [List.count_cons_self, htick, toNat_countDown]
      omega

/-- From a live state any number of ticks complete, for a tick leaves it live. -/
theorem exists_runSchedule_ticks (k : Nat) {s : State} (h : s.Live) :
    ∃ t, runSchedule (List.replicate k .tick) s = .next t := by
  induction k generalizing s with
  | zero => exact ⟨s, rfl⟩
  | succ k ih =>
    have hlive : (tick s).Live := h
    rw [List.replicate_succ, runSchedule, transition_tick h]
    exact ih hlive

theorem stepsAvoid_ticks (p : Instr → Prop) (k : Nat) (s : State) : StepsAvoid p (List.replicate k .tick) s := by
  intro j u i _ hj
  cases List.eq_of_mem_replicate (List.mem_of_getElem? hj)

/-- Settles O35: each timer has its own frame lemma, a run of ticks alone executes nothing, and so, but for the timers,
it leads where no transition at all leads. -/
theorem ticksSaturateAtZero : Obligations.TicksSaturateAtZero := by
  have hdelay {l s t} := runSchedule_timer_eq_sub (l := l) (s := s) (t := t) tick_dt State.setFaulted_dt Effect.dt_eq
  have hsound {l s t} := runSchedule_timer_eq_sub (l := l) (s := s) (t := t) tick_st State.setFaulted_st Effect.st_eq
  refine ⟨fun s k hlive => ?_, fun l s t h => ⟨hdelay h, hsound h⟩⟩
  obtain ⟨t, ht⟩ := exists_runSchedule_ticks k hlive
  have hsteps : engineSteps (List.replicate k .tick) = engineSteps [] := by simp [engineSteps, List.count_replicate]
  have hdt := hdelay ht (stepsAvoid_ticks _ k s)
  have hst := hsound ht (stepsAvoid_ticks _ k s)
  rw [List.count_replicate_self] at hdt hst
  exact ⟨t, ht, hdt, hst, (scheduleAffectsOnlyTheTimers _ _ s s t s hsteps rfl ht rfl).symm⟩

/-! ### The Display's record -/

/-- Only the two Display instructions append to the record, each its own call (`60_exceptions.md` R180). -/
theorem Effect.calls_eq {s t : State} {i : Instr} (h : Effect s i t) :
    t.calls = s.calls ∨ (i = .clearScreen ∧ t.calls = s.calls ++ [.clear]) ∨
    ∃ x y n sprite, i = .drawSprite x y n ∧ spriteBytes n s = some sprite ∧
      t.calls = s.calls ++ [.draw sprite (s.readV x) (s.readV y)] := by
  cases h with
  | clears | clearFails => exact .inr (.inl ⟨rfl, rfl⟩)
  | draws hb | drawFails hb => exact .inr (.inr ⟨_, _, _, _, rfl, hb, rfl⟩)
  | _ => exact .inl rfl

theorem Effect.calls_prefix {s t : State} {i : Instr} (h : Effect s i t) : s.calls <+: t.calls := by
  obtain hcalls | ⟨-, hcalls⟩ | ⟨_, _, _, _, -, -, hcalls⟩ := h.calls_eq <;> rw [hcalls]
  · exact List.prefix_append _ _
  · exact List.prefix_append _ _

theorem transition_calls_prefix {tr : Transition} {s t : State} (h : transition tr s = .next t) :
    s.calls <+: t.calls := by
  obtain ⟨-, ⟨-, hstep⟩ | ⟨-, rfl⟩⟩ := transition_eq_next h
  · obtain ⟨e, -, rfl⟩ | ⟨i, -, -, hi⟩ := engineStep_eq_next hstep
    · exact List.prefix_rfl
    · exact (effect_of_exec hi).calls_prefix
  · exact List.prefix_rfl

/-- Settles O43: every instruction, and so every run, only appends. -/
theorem onlyDisplayInstructionsCallTheDisplay : Obligations.OnlyDisplayInstructionsCallTheDisplay := by
  refine ⟨fun i s t h => (effect_of_exec h).calls_eq, fun l s t h => ?_⟩
  obtain ⟨more, hmore⟩ : s.calls <+: t.calls := runSchedule_keeps (P := fun u => s.calls <+: u.calls)
    (fun hu htr => hu.trans (transition_calls_prefix htr)) List.prefix_rfl h
  exact ⟨more, hmore.symm⟩

/-! ### The end of a session -/

/-- No transition takes the load back. -/
theorem transition_loaded_eq {tr : Transition} {s t : State} (h : transition tr s = .next t) : t.loaded = s.loaded := by
  obtain ⟨-, ⟨-, hstep⟩ | ⟨-, rfl⟩⟩ := transition_eq_next h
  · obtain ⟨e, -, rfl⟩ | ⟨i, -, -, hi⟩ := engineStep_eq_next hstep
    · rfl
    · cases effect_of_exec hi with
      | _ => rfl
  · rfl

/-- A live state moves to a live state or to the end of the session. -/
theorem State.Live.exists_transition {s : State} (h : s.Live) (tr : Transition) :
    ∃ t, transition tr s = .next t ∧ (t.Live ∨ ∃ e, t.status = .faulted e) := by
  obtain ⟨t, ht⟩ := runningMachineAlwaysMoves s tr h
  refine ⟨t, ht, ?_⟩
  cases hs : t.status with
  | running => exact .inl ⟨hs, (transition_loaded_eq ht).trans h.2⟩
  | faulted e => exact .inr ⟨e, rfl⟩

theorem firstTransitions_add (σ : Nat → Transition) (n k : Nat) :
    firstTransitions σ (n + k) = firstTransitions σ n ++ firstTransitions (fun j => σ (n + j)) k := by
  simp [firstTransitions, List.range_add, Function.comp_def]

/-- After an error nothing follows, however long the schedule. -/
theorem runFirst_of_faulted {σ : Nat → Transition} {n m : Nat} {s t : State} {e : ErrorKind}
    (h : runFirst σ n s = .next t) (ht : t.status = .faulted e) (hm : n < m) :
    runFirst σ m s = .fault (.sessionOver e) := by
  obtain ⟨k, rfl⟩ := Nat.exists_eq_add_of_lt hm
  rw [runFirst, Nat.add_assoc, firstTransitions_add, runSchedule_append _ h, firstTransitions_succ', runSchedule,
    transition_of_faulted _ ht]

/-- Settles O54: the shortest beginning that does not complete in a live state, if there is one, ends in the error. -/
theorem everyInfiniteScheduleRunsOrEndsInAnError : Obligations.EveryInfiniteScheduleRunsOrEndsInAnError := by
  classical
  intro σ s hlive
  by_cases hall : ∀ n : Nat, ∃ t, runFirst σ n s = .next t ∧ t.Live
  · exact .inl hall
  · right
    have hstops := not_forall.mp hall
    have hbefore (m : Nat) (hm : m < Nat.find hstops) := not_not.mp (Nat.find_min hstops hm)
    obtain ⟨n, hn⟩ : ∃ n, Nat.find hstops = n + 1 :=
      Nat.exists_eq_succ_of_ne_zero fun h0 => (Nat.find_eq_zero hstops).mp h0 ⟨s, rfl, hlive⟩
    obtain ⟨u, hu, hulive⟩ := hbefore n (by omega)
    obtain ⟨t, ht, hend⟩ := hulive.exists_transition (σ n)
    have hrun : runFirst σ (n + 1) s = .next t := (runFirst_succ hu).trans ht
    have hnot : ¬ t.Live := fun htlive => Nat.find_spec hstops (hn ▸ ⟨t, hrun, htlive⟩)
    obtain ⟨e, he⟩ := hend.resolve_left hnot
    exact ⟨n + 1, t, e, hrun, he, fun m hm => hbefore m (by omega), fun m hm => runFirst_of_faulted hrun he hm⟩

end Sys2Proof.Machine
end

section
/-! SUPPORT. Sessions (`70_reset_and_hazards.md` R191 to R194): the load after a reset as one equation per outcome, and
that a session which has had its load, successful or not, never comes back to a state `reset()` leaves. -/

namespace Sys2Proof.Machine

/-! ### The load after a reset -/

section Load

variable {font bytes : List Byte} {s t : State}

theorem loadProgram_hostReset_of_le (h : bytes.length ≤ maxProgram) : loadProgram bytes (hostReset font s) =
    .next { hostReset font s with mem := Memory.writeBytes (hostReset font s).mem 0x200 bytes, loaded := true } := by
  rw [loadProgram, if_pos (freshlyReset_hostReset font s), if_neg (Nat.not_lt.mpr h)]

theorem loadProgram_hostReset_of_gt (h : maxProgram < bytes.length) :
    loadProgram bytes (hostReset font s) = .next ((hostReset font s).setFaulted .programTooLarge) := by
  rw [loadProgram, if_pos (freshlyReset_hostReset font s), if_pos h]
  rfl

/-- The session's one load has taken place: a success has set the load mark, or an error has ended the session
(`70_reset_and_hazards.md` R194). -/
def State.LoadTaken (s : State) : Prop := s.loaded = true ∨ s.status ≠ .running

theorem State.LoadTaken.loadProgram_refused (h : s.LoadTaken) : loadProgram bytes s = .refused .loadOutOfOrder := by
  simp [loadProgram, not_freshlyReset h]

theorem loadTaken_of_loadProgram (h : loadProgram bytes s = .next t) : t.LoadTaken := by
  obtain ⟨-, ⟨-, rfl⟩ | ⟨-, rfl⟩⟩ := loadProgram_eq_next h
  · exact .inl rfl
  · exact .inr (by simp)

/-- Only a loaded state moves, and no transition takes the load back. -/
theorem loadTaken_of_transition {tr : Transition} (h : transition tr s = .next t) : t.LoadTaken := by
  obtain ⟨⟨-, hloaded⟩, -⟩ := transition_eq_next h
  exact .inl ((transition_loaded_eq h).trans hloaded)

end Load

/-- Settles O46, by the two outcomes of a load after a reset. -/
theorem loadProgramCopiesTheBytes : Obligations.LoadProgramCopiesTheBytes := by
  intro font s bytes _
  refine ⟨fun hlen => ⟨_, loadProgram_hostReset_of_le hlen, fun k hk => ?_, fun a ha => ?_, rfl⟩,
    loadProgram_hostReset_of_gt⟩
  · have hfits : 0x200 + bytes.length ≤ memSize := by
      simp only [memSize]
      omega
    rw [Memory.read_writeBytes_inside (hostReset_inv font s).memWf hfits hk, List.getElem?_eq_getElem hk]
  · exact Memory.read_writeBytes_outside ha

/-- Settles O47: a load that answers a state is the session's one load, and every transition leaves it taken. -/
theorem secondLoadIsRefused : Obligations.SecondLoadIsRefused := by
  intro bytes more l s t u hload hrun
  have htaken : u.LoadTaken :=
    runSchedule_keeps (fun _ htr => loadTaken_of_transition htr) (loadTaken_of_loadProgram hload) hrun
  exact htaken.loadProgram_refused

/-- Settles O53: a reset unsets the load mark, and a load of a program that fits leaves a live state. -/
theorem transitionsWaitForTheLoad : Obligations.TransitionsWaitForTheLoad := by
  refine ⟨fun s tr hs hl => ⟨transition_of_unloaded tr hs hl, transition_of_unloaded (s := s.takeTransition) _ hs hl⟩,
    fun font s tr l => ?_, fun font bytes s tr hlen => ?_⟩
  · rw [runSchedule, transition_of_unloaded tr rfl rfl]
  · obtain ⟨t, ht, hlive⟩ : ∃ t, loadProgram bytes (hostReset font s) = .next t ∧ t.Live :=
      ⟨_, loadProgram_hostReset_of_le hlen, rfl, rfl⟩
    obtain ⟨u, hu⟩ := runningMachineAlwaysMoves t tr hlive
    exact ⟨t, u, ht, hu⟩

/-- After a reset the program area holds zeros (`10_state.md` R43). -/
theorem fetch16_hostReset {font : List Byte} (hf : font.length = 80) (s : State) {a : Nat} (ha : 80 ≤ a) :
    Memory.fetch16 (hostReset font s).mem a = 0 := by
  rw [Memory.fetch16, hostReset_read hf, hostReset_read hf, List.getElem?_eq_none (by omega),
    List.getElem?_eq_none (by omega)]
  rfl

theorem transition_step_of_unmapped {s : State} {w : Word} (hlive : s.Live) (hpc : s.pc.toNat ≤ 0xFFE)
    (hfetch : Memory.fetch16 s.mem s.pc.toNat = w) (hw : wordMapped w = false) :
    transition .step s = .next { s with status := .faulted (.unimplementedOpcode w s.pc) } := by
  subst hfetch
  exact unknownWordRaisesUnimplementedOpcode s hlive hpc hw

/-- Settles O48: the first fetch finds zeros, and no row of the opcode map selects the word 0x0000. -/
theorem emptyProgramStopsAtItsFirstStep : Obligations.EmptyProgramStopsAtItsFirstStep := by
  intro font s hf
  refine ⟨{ hostReset font s with loaded := true }, loadProgram_hostReset_of_le (Nat.zero_le _), fun _ => rfl, ?_⟩
  have hword : Memory.fetch16 (hostReset font s).mem 0x200 = 0 := fetch16_hostReset hf s (by decide)
  exact transition_step_of_unmapped ⟨rfl, rfl⟩ (by decide : 0x200 ≤ 0xFFE) hword (by decide)

end Sys2Proof.Machine
end

section
/-! SUPPORT. The end of a run (`70_reset_and_hazards.md` R209, R210): a state that has finished differs along every run
in its timers alone, and each timer is down to 0 once the schedule has given enough ticks. -/

namespace Sys2Proof.Machine

/-! ### A finished program -/

section Finished

variable {s t : State}

/-- The fetch does not look at the timers, so neither does the end of a run. -/
theorem State.Finished.of_sameButTimers (hs : s.Finished) (h : SameButTimers s t) : t.Finished := by
  obtain ⟨d, e, rfl⟩ := sameButTimers_iff.mp h
  exact hs

theorem State.Live.of_sameButTimers (hs : s.Live) (h : SameButTimers s t) : t.Live := by
  obtain ⟨d, e, rfl⟩ := sameButTimers_iff.mp h
  exact hs

/-- A jump to itself leaves the whole state (`40_control_flow.md` R91). -/
theorem State.Finished.step_eq_self (hs : s.Finished) (hlive : s.Live) : transition .step s = .next s := by
  obtain ⟨nnn, hfetch, hpc⟩ := hs
  calc
    transition .step s = exec (.jump nnn) s :=
      (transition_step hlive).trans (engineStep_of_fetchDecode hfetch)
    _ = .next (s.setPc s.pc) := by rw [hpc]; rfl

theorem State.Finished.exists_transition (hs : s.Finished) (hlive : s.Live) (tr : Transition) :
    ∃ t, transition tr s = .next t ∧ SameButTimers s t := by
  cases tr with
  | step => exact ⟨s, hs.step_eq_self hlive, SameButTimers.refl s⟩
  | tick => exact ⟨tick s, transition_tick hlive, rfl⟩

theorem State.Finished.exists_runSchedule (hs : s.Finished) (hlive : s.Live) (l : List Transition) :
    ∃ t, runSchedule l s = .next t ∧ SameButTimers s t := by
  induction l generalizing s with
  | nil => exact ⟨s, rfl, SameButTimers.refl s⟩
  | cons tr l ih =>
    obtain ⟨u, hu, hsu⟩ := hs.exists_transition hlive tr
    obtain ⟨t, ht, hut⟩ := ih (hs.of_sameButTimers hsu) (hlive.of_sameButTimers hsu)
    refine ⟨t, ?_, hsu.trans hut⟩
    rw [runSchedule, hu]
    exact ht

/-- A finished program executes nothing but jumps. -/
theorem State.Finished.stepsAvoid (hs : s.Finished) (hlive : s.Live) {p : Instr → Prop} (hp : ∀ nnn, ¬ p (.jump nnn))
    (l : List Transition) : StepsAvoid p l s := by
  intro k u i hu _ hi
  obtain ⟨v, hv, hsv⟩ := hs.exists_runSchedule hlive (l.take k)
  obtain rfl : u = v := Host.Outcome.next.inj (hu.symm.trans hv)
  obtain ⟨nnn, hfetch, -⟩ := hs.of_sameButTimers hsv
  obtain rfl : i = .jump nnn := Except.ok.inj (hi.symm.trans hfetch)
  exact hp nnn

/-- As many ticks as a byte can hold count both timers of a finished program down to 0. -/
theorem State.Finished.timers_eq_zero (hs : s.Finished) (hlive : s.Live) {l : List Transition}
    (h : runSchedule l s = .next t) (hl : 255 ≤ l.count .tick) : t.dt = 0 ∧ t.st = 0 := by
  obtain ⟨hdelay, hsound⟩ := ticksSaturateAtZero.2 l s t h
  have hdt := hdelay (hs.stepsAvoid hlive (by simp) l)
  have hst := hsound (hs.stepsAvoid hlive (by simp) l)
  exact ⟨by bv_omega, by bv_omega⟩

end Finished

/-- Settles O52: a finished program keeps all but its timers along every run, and so stays finished. -/
theorem finishedProgramStaysFinished : Obligations.FinishedProgramStaysFinished := by
  refine fun s hs hlive => ⟨hs.step_eq_self hlive, fun l => ?_⟩
  obtain ⟨t, ht, hst⟩ := hs.exists_runSchedule hlive l
  exact ⟨t, ht, hst, hs.of_sameButTimers hst⟩

/-! ### Fairness -/

/-- A longer beginning of a schedule has no fewer ticks. -/
theorem count_firstTransitions_mono (σ : Nat → Transition) (tr : Transition) :
    Monotone fun n => (firstTransitions σ n).count tr :=
  monotone_nat_of_le_succ fun n => by simp [List.count_append]

/-- A schedule in which a transition occurs again and again has beginnings with any number of them. -/
theorem exists_le_count_firstTransitions {σ : Nat → Transition} {tr : Transition} (h : ∀ n, ∃ m, n ≤ m ∧ σ m = tr)
    (k : Nat) : ∃ n, k ≤ (firstTransitions σ n).count tr := by
  induction k with
  | zero => exact ⟨0, Nat.zero_le _⟩
  | succ k ih =>
    obtain ⟨n, hn⟩ := ih
    obtain ⟨m, hnm, hm⟩ := h n
    refine ⟨m + 1, ?_⟩
    rw [firstTransitions_succ, List.count_append, hm, List.count_singleton_self]
    exact Nat.succ_le_succ (hn.trans (count_firstTransitions_mono σ tr hnm))

/-- A finished program is live at every place of a schedule, so under a fair one the ticks never end. -/
theorem WeaklyFair.tick_recurs {σ : Nat → Transition} {s : State} (hfair : WeaklyFair σ s) (hs : s.Finished)
    (hlive : s.Live) (n : Nat) : ∃ m, n ≤ m ∧ σ m = .tick := by
  refine hfair .tick n fun m _ => ?_
  obtain ⟨u, hu, hsu⟩ := hs.exists_runSchedule hlive (firstTransitions σ m)
  exact ⟨u, hu, hlive.of_sameButTimers hsu⟩

/-- Settles O55: a fair schedule gives 255 ticks, and one of steps alone repeats the jump to itself. -/
theorem fairScheduleRunsTheTimersOut : Obligations.FairScheduleRunsTheTimersOut := by
  refine ⟨fun σ s hs hlive hfair => ?_, fun s m hs hlive => ?_⟩
  · obtain ⟨n, hn⟩ := exists_le_count_firstTransitions (hfair.tick_recurs hs hlive) 255
    refine ⟨n, fun m hnm => ?_⟩
    obtain ⟨t, ht, hst⟩ := hs.exists_runSchedule hlive (firstTransitions σ m)
    obtain ⟨hdt, hst0⟩ := hs.timers_eq_zero hlive ht (hn.trans (count_firstTransitions_mono σ .tick hnm))
    exact ⟨t, ht, hdt, hst0, hst⟩
  · induction m with
    | zero => rfl
    | succ m ih => rw [runFirst_succ ih, hs.step_eq_self hlive]

end Sys2Proof.Machine
end
